-- ==== Sys2Proof/Word.lean ====
section
/-! DEFINITION. The words KPE1600 moves: 64-bit channel words and lanes, bytes of host memory, 5-bit header fields
(spec 00_scope R11, R12; 30_encoding R56). -/

namespace Sys2Proof

/-- A 64-bit word: a lane, a channel word, a counter, a host byte address (R12, R29, R39). -/
abbrev Word := BitVec 64

/-- A byte of host memory (R40). -/
abbrev Byte := BitVec 8

/-- A 5-bit header field: ROUNDS, OFFSET or LANES (R56), read as an unsigned number (R57). -/
abbrev Field := BitVec 5

/-- A canonical state: the 25 lanes in the order 5y + x (R12). -/
abbrev Canon := List Word

/-- A lane-vector value: element k, counted from the least significant, stands at position k (R14). -/
abbrev LaneVec := List Word

/-- The lane-vector register file V[0] .. V[24] (R19). -/
abbrev VFile := List LaneVec

end Sys2Proof
end

