-- ==== Sys2Proof/Config.lean ====
section
/-! DEFINITION. What is fixed when a KPE1600 is built (spec 00_scope R7, R8), and the free values. Which configurations are
legal (R10) is said in Sys2Proof/Machine/Configuration.lean. -/

namespace Sys2Proof

/-- The parallel width N: one of 1, 2, 4, 8 and nothing else (R7). -/
inductive Width where
  | w1
  | w2
  | w4
  | w8
  deriving DecidableEq, Repr

/-- N as a number. -/
def Width.n : Width → Nat
  | .w1 => 1
  | .w2 => 2
  | .w4 => 4
  | .w8 => 8

/-- VARIANT (R8): which engine is built. No command observes it (R86). -/
inductive Variant where
  | scalar
  | v128
  | v256
  | v512
  | batched
  deriving DecidableEq, Repr

/-- ISA_TARGET (R8), which only a batched engine has. No command observes it. -/
inductive IsaTarget where
  | x86v128
  | x86v256
  | x86v512
  | armNeon
  | wasmSimd
  | loongArch128
  | loongArch256
  | portableArray
  deriving DecidableEq, Repr

/-- LX_BASE (R103): whether an LDXR pointer names lane 0 of a whole-state image, or the first word to absorb. -/
inductive LxBase where
  | image
  | packed
  deriving DecidableEq, Repr

/-- The parameters of R8 that are not fixed. A configuration is a value, held in State and changed by nothing, so that every
statement is about every configuration. DESIGN CHOICE (log 1, safe: nothing is chosen here). -/
structure Config where
  /-- N (R7). -/
  width : Width
  /-- VARIANT. -/
  variant : Variant
  /-- ISA_TARGET, present for a batched engine only. -/
  isaTarget : Option IsaTarget
  /-- The width in bits of the widest vector register the hardware has, 0 for none (R10, R139). -/
  vectorBits : Nat
  /-- RESP_DEPTH: the capacity of the response channel in words, or unbounded (R30). -/
  respDepth : Option Nat
  /-- LX_BASE. -/
  lxBase : LxBase
  /-- CMPS_EXACT (R94). -/
  cmpsExact : Bool
  deriving DecidableEq, Repr

/-- The configuration the model resets with: N = 1, scalar, and R8's defaults for the rest.
DESIGN CHOICE (log 1): R8 leaves N and VARIANT open. Unsafe for a claim about State.reset alone. -/
def Config.default : Config :=
  { width := .w1, variant := .scalar, isaTarget := none, vectorBits := 0, respDepth := none, lxBase := .image, cmpsExact := true }

/-- FREE VALUE: the byte that the draw with this index gives for a read that races with a Host write (R51; log 8). -/
opaque Config.freeByte : Nat → Byte

/-- FREE VALUE: the bit that the draw with this index gives for an unequal comparison when CMPS_EXACT = false (R94; log 9). -/
opaque Config.freeBit : Nat → Bool

/-- FREE VALUE: the content of a byte of host memory that no Host move has written (log 7). -/
opaque Config.unwrittenByte : Nat → Byte

end Sys2Proof
end

