-- ==== Sys2Proof/Syntax.lean ====
section
/-! DEFINITION. The eight commands of KPE1600, one constructor per row of spec/opcode_table.json (30_encoding R65). A
field is any 5-bit value its header can carry (R57): a value outside the legal range is a command too, one that faults when it
runs (R58 to R60). The pseudo-instructions of R72 are other spellings of these and stand in Machine/Assembler.lean. -/

namespace Sys2Proof

/-- A command, less its payload words, which are never decoded (R70). -/
inductive Instr where
  /-- `perm R`: permute every instance by R rounds (R85). -/
  | perm (rounds : Field)
  /-- `cmps`: compare the state with the payload (R93). -/
  | cmps
  /-- `ldst`: load N canonical states (R97). -/
  | ldst
  /-- `stst`: emit the N canonical states (R98). -/
  | stst
  /-- `ftrn OFF`: transpose a block of N lanes across the N instances (R100). -/
  | ftrn (offset : Field)
  /-- `ldxr OFF, LANES`: xor little-endian words of host memory into lanes (R102). -/
  | ldxr (offset lanes : Field)
  /-- `xorl OFF, LANES`: xor payload words into lanes (R106). -/
  | xorl (offset lanes : Field)
  /-- `extl OFF, LANES`: emit a range of lanes (R109). -/
  | extl (offset lanes : Field)
  deriving DecidableEq, Repr

end Sys2Proof
end

