-- ==== Sys2Proof/Decode.lean ====
section
/-! DEFINITION. The header word's fields, the decoder (total, rejecting by name), the encoder, and the payload and response
lengths (spec 30_encoding R55 to R69, 60_exceptions R113). -/

namespace Sys2Proof

/-! ## Fields of a header word (R56) -/

/-- OP, bits [7:0]. -/
def opField (h : Word) : BitVec 8 := h.extractLsb' 0 8

/-- ROUNDS, bits [12:8]. -/
def roundsField (h : Word) : Field := h.extractLsb' 8 5

/-- RSV_A, bits [15:13]. -/
def rsvA (h : Word) : BitVec 3 := h.extractLsb' 13 3

/-- OFFSET, bits [20:16]. -/
def offsetField (h : Word) : Field := h.extractLsb' 16 5

/-- RSV_B, bits [23:21]. -/
def rsvB (h : Word) : BitVec 3 := h.extractLsb' 21 3

/-- LANES, bits [28:24]. -/
def lanesField (h : Word) : Field := h.extractLsb' 24 5

/-- RSV_C, bits [63:29]. -/
def rsvC (h : Word) : BitVec 35 := h.extractLsb' 29 35

/-- The names of the opcode map (R65). -/
inductive Opcode where
  | perm
  | cmps
  | ldst
  | stst
  | ftrn
  | ldxr
  | xorl
  | extl
  deriving DecidableEq, Repr

/-- The opcode map (R65). -/
def Opcode.code : Opcode → BitVec 8
  | .perm => 0x01
  | .cmps => 0x02
  | .ldst => 0x03
  | .stst => 0x04
  | .ftrn => 0x05
  | .ldxr => 0x06
  | .xorl => 0x07
  | .extl => 0x08

/-- The opcode map read backwards: 0x00 and 0x09 to 0xFF are reserved (R65). -/
def opcodeOf (op : BitVec 8) : Option Opcode :=
  match op.toNat with
  | 1 => some .perm
  | 2 => some .cmps
  | 3 => some .ldst
  | 4 => some .stst
  | 5 => some .ftrn
  | 6 => some .ldxr
  | 7 => some .xorl
  | 8 => some .extl
  | _ => none

/-! ## The decoder -/

/-- Why a header word is no command (R69). The other illegal values of R69 are values of a command's own fields: its meaning
takes their fault. -/
inductive Reject where
  /-- OP is 0x00 or 0x09..0xFF (R65). -/
  | illegalOpcode
  /-- A reserved bit is set, or a field the command does not use is non-zero (R61, R62). -/
  | reservedField
  deriving DecidableEq, Repr

/-- What the decoder answers. -/
inductive Decoded where
  | command (i : Instr)
  | reject (r : Reject)
  deriving DecidableEq, Repr

/-- The command, or none. -/
def Decoded.toOption : Decoded → Option Instr
  | .command i => some i
  | .reject _ => none

/-- `i` if the field checks of R61 and R62 hold. -/
def acceptIf (ok : Bool) (i : Instr) : Decoded :=
  if ok then .command i else .reject .reservedField

/-- The first four encoding checks of R113, in its order: the opcode, then reserved bits and unused fields. -/
def decode (h : Word) : Decoded :=
  let noReserved := rsvA h == 0 && rsvB h == 0 && rsvC h == 0
  let noRounds := roundsField h == 0
  let noOffset := offsetField h == 0
  let noLanes := lanesField h == 0
  match opcodeOf (opField h) with
  | none => .reject .illegalOpcode
  | some .perm => acceptIf (noReserved && noOffset && noLanes) (.perm (roundsField h))
  | some .cmps => acceptIf (noReserved && noRounds && noOffset && noLanes) .cmps
  | some .ldst => acceptIf (noReserved && noRounds && noOffset && noLanes) .ldst
  | some .stst => acceptIf (noReserved && noRounds && noOffset && noLanes) .stst
  | some .ftrn => acceptIf (noReserved && noRounds && noLanes) (.ftrn (offsetField h))
  | some .ldxr => acceptIf (noReserved && noRounds) (.ldxr (offsetField h) (lanesField h))
  | some .xorl => acceptIf (noReserved && noRounds) (.xorl (offsetField h) (lanesField h))
  | some .extl => acceptIf (noReserved && noRounds) (.extl (offsetField h) (lanesField h))

/-! ## The encoder -/

/-- A header word with reserved fields 0: `LANES << 24 | OFFSET << 16 | ROUNDS << 8 | OP` (R56). -/
def headerWord (op : Opcode) (rounds offset lanes : Field) : Word :=
  lanes.setWidth 64 <<< 24 ||| offset.setWidth 64 <<< 16 ||| rounds.setWidth 64 <<< 8 ||| op.code.setWidth 64

/-- The one legal header of a command (R62): unused and reserved fields are 0. -/
def encode : Instr → Word
  | .perm rounds => headerWord .perm rounds 0 0
  | .cmps => headerWord .cmps 0 0 0
  | .ldst => headerWord .ldst 0 0 0
  | .stst => headerWord .stst 0 0 0
  | .ftrn offset => headerWord .ftrn 0 offset 0
  | .ldxr offset lanes => headerWord .ldxr 0 offset lanes
  | .xorl offset lanes => headerWord .xorl 0 offset lanes
  | .extl offset lanes => headerWord .extl 0 offset lanes

/-! ## Lengths -/

/-- P, the number of payload words (R66). -/
def payloadWords (n : Width) : Instr → Nat
  | .perm _ => 0
  | .cmps => 25 * n.n
  | .ldst => 25 * n.n
  | .stst => 0
  | .ftrn _ => 0
  | .ldxr _ _ => n.n
  | .xorl _ lanes => n.n * lanes.toNat
  | .extl _ _ => 0

/-- E, the number of response words (R65). -/
def responseWords (n : Width) : Instr → Nat
  | .perm _ => 0
  | .cmps => 1
  | .ldst => 0
  | .stst => 25 * n.n
  | .ftrn _ => 0
  | .ldxr _ _ => 0
  | .xorl _ _ => 0
  | .extl _ lanes => n.n * lanes.toNat

/-! ## The host's view of an opcode-table word -/

/-- Word number j of a command whose first nbits bits are w, 64 bits a word, the bits above nbits 0. -/
def tableWord (nbits w j : Nat) : Word := BitVec.ofNat 64 ((w % 2 ^ nbits) >>> (64 * j))

/-- The words of that command for an engine of width n: its header and as many payload words as the header asks for. -/
def tableCommand (n : Width) (nbits w : Nat) : List Word :=
  match decode (tableWord nbits w 0) with
  | .command i => (List.range (1 + payloadWords n i)).map (tableWord nbits w)
  | .reject _ => [tableWord nbits w 0]

/-- The command the decoder reads from a header given by its bits, numbered as spec/opcode_table.json numbers them. -/
def decodeTableWord (nbits w : Nat) : Option Instr := (decode (tableWord nbits w 0)).toOption

end Sys2Proof
end

