-- ==== Sys2Proof/Machine/Memory.lean ====
section
/-! DEFINITION. Lists of (address, value) pairs in one canonical form, addresses strictly rising, and the Host's memory held
as one (spec 20_memory R40). -/

namespace Sys2Proof.Machine

/-- The value listed at an address, if one is. -/
def sortedGet {β : Type} : List (Nat × β) → Nat → Option β
  | [], _ => none
  | (k, v) :: t, a => if k = a then some v else sortedGet t a

/-- The list with this value at this address, the addresses still rising. -/
def sortedSet {β : Type} : List (Nat × β) → Nat → β → List (Nat × β)
  | [], a, b => [(a, b)]
  | (k, v) :: t, a, b =>
    if a < k then (a, b) :: (k, v) :: t
    else if a = k then (a, b) :: t
    else (k, v) :: sortedSet t a b

/-- The list without this address. -/
def sortedErase {β : Type} (m : List (Nat × β)) (a : Nat) : List (Nat × β) :=
  m.filter fun p => p.1 != a

/-- The canonical form: addresses strictly rising. -/
abbrev rising {β : Type} (m : List (Nat × β)) : Prop := (m.map Prod.fst).Pairwise (· < ·)

/-- Host memory: the bytes the Host has written (R40). -/
abbrev Memory := List Host.Cell

/-- What a byte of memory holds: the byte written there, or none where nothing has been written. An unlisted address is one
that nothing has written, so that no entry can equal what an unlisted address reads as (log 7). -/
def Memory.read (m : Memory) (a : Nat) : Option Byte := sortedGet m a

/-- The Host writes a byte. The engine has no such operation (R40, R46). -/
def Memory.write (m : Memory) (a : Word) (b : Byte) : Memory := sortedSet m a.toNat b

/-- Memory's canonical form: addresses strictly rising and below 2^64 (R39, R40). -/
abbrev Memory.wf (m : Memory) : Prop := rising m ∧ ∀ c ∈ m, c.1 < 2 ^ 64

end Sys2Proof.Machine
end

