-- ==== Sys2Proof/Machine/State.lean ====
section
/-! DEFINITION. The state of KPE1600 (spec 10_state R19 to R38), the outcomes that are no next state, and reset. -/

namespace Sys2Proof.Machine

/-- Why a step has no next state although the configuration is legal. KPE1600's own fault (60_exceptions R114) is NOT one of
these: it is a next state, with the fault record written. -/
inductive Fault where
  /-- An LDXR with a byte that is not admitted: the spec's stuck state, which has no step and raises no fault (R45, R116).
  Raised by the meaning of `ldxr`. Safe: nothing can be proved of what would follow. -/
  | ldxrNotAdmitted
  deriving DecidableEq, Repr

/-- Why a move is refused. -/
inductive Refusal where
  /-- A command without a meaning. Raised by no arm of exec: every command has its meaning. Safe. -/
  | notModelled (mnemonic : String)
  /-- The configuration is illegal: it has no step (R10, R139). Raised by step and by every Host move. Safe. -/
  | illegalConfiguration
  /-- A CSR read at an offset that is no multiple of 8: the Host has no such move (R136). Raised by the Host's CSR read.
  Safe. -/
  | csrReadOutsideInterface
  deriving DecidableEq, Repr

/-- The causes of KPE1600's fault (R112). Cause 0, NONE, is never raised. -/
inductive Cause where
  | illegalOpcode
  | reservedField
  | roundsRange
  | lanesRange
  | laneBound
  | notLoaded
  deriving DecidableEq, Repr

/-- A region of host memory that the Host has declared readable (R41, R136): the addresses base .. base + size - 1. -/
structure Region where
  base : Word
  size : Nat
  /-- How many words now in the command channel were there when the Host declared the region. A command whose header is among
  them does not have the region, since the Host declares regions before it appends the header (R130; log 5). -/
  late : Nat
  deriving DecidableEq, Repr

/-- Everything the spec gives the machine. -/
structure State where
  /-- The configuration, changed by nothing (R7, R8). -/
  cfg : Config
  /-- V[0] .. V[24], each a list of N elements (R19). -/
  v : VFile
  /-- LOADED (R23). -/
  loaded : Bool
  /-- FAULT (R28). -/
  fault : Bool
  /-- FCAUSE (R28). -/
  fcause : BitVec 4
  /-- FCMD (R28). -/
  fcmd : Word
  /-- FIDX (R28). -/
  fidx : Word
  /-- CMD_IDX, the program counter (R24). -/
  cmdIdx : Word
  /-- RPTR, the number of channel words consumed (R25). -/
  rptr : Word
  /-- The command channel, its head first (R29). -/
  cmd : List Word
  /-- The response channel, its head first (R30). -/
  resp : List Word
  /-- Host memory, which the Host owns (R40). -/
  mem : Memory
  /-- The regions the Host has declared readable (R41). -/
  readable : List Region
  /-- For each byte address, how many words now in the command channel were there when the Host last wrote the byte; an
  address that no command in the channel can race on is not listed (R51). The model's own bookkeeping (log 8). -/
  raced : List (Nat × Nat)
  /-- The number of free draws taken so far: the model's own field (log 8, log 9). -/
  draws : Nat
  deriving DecidableEq, Repr

/-- The state after reset of an engine of this configuration (R38). V holds no value: DESIGN CHOICE 0 (log 2), which no
command reads while LOADED = 0. Host memory is unwritten and no region is declared: DESIGN CHOICE (log 5, log 7). -/
def State.resetOf (c : Config) : State :=
  { cfg := c
    v := List.replicate 25 (List.replicate c.width.n 0)
    loaded := false
    fault := false
    fcause := 0
    fcmd := 0
    fidx := 0
    cmdIdx := 0
    rptr := 0
    cmd := []
    resp := []
    mem := []
    readable := []
    raced := []
    draws := 0 }

/-- The machine right after reset, in the configuration of log 1. -/
def State.reset : State := State.resetOf Config.default

end Sys2Proof.Machine
end

