-- ==== Sys2Proof/Machine/Configuration.lean ====
section
/-! DEFINITION. Which configurations are legal, and their names (spec 00_scope R3, R8, R10, 70 R133, R139). -/

namespace Sys2Proof.Machine

/-- LOG2N of ID_CFG (R32). -/
def widthLog2 : Width → Nat
  | .w1 => 0
  | .w2 => 1
  | .w4 => 2
  | .w8 => 3

/-- The VARIANT values R8 allows for a width: BATCHED for N > 1, the others for N = 1. -/
def variantFits : Width → Variant → Bool
  | .w1, .batched => false
  | .w1, _ => true
  | _, .batched => true
  | _, _ => false

/-- The register width an ISA target's name asks for. PRESUMED for NEON and WASM SIMD: 128 bits (log 15). -/
def isaTargetBits : IsaTarget → Nat
  | .x86v128 => 128
  | .x86v256 => 256
  | .x86v512 => 512
  | .armNeon => 128
  | .wasmSimd => 128
  | .loongArch128 => 128
  | .loongArch256 => 256
  | .portableArray => 0

/-- The register width the selected engine needs of the hardware (R10). -/
def neededBits (c : Config) : Nat :=
  match c.variant with
  | .scalar => 0
  | .v128 => 128
  | .v256 => 256
  | .v512 => 512
  | .batched =>
    match c.isaTarget with
    | some t => isaTargetBits t
    | none => 0

/-- ISA_TARGET is a parameter of a batched engine only (R8). DEDUCED (log 17). -/
def isaTargetFits (c : Config) : Bool :=
  (c.variant == .batched) == c.isaTarget.isSome

/-- A finite response channel must hold a whole STST (R133). -/
def respDepthFits (c : Config) : Bool :=
  match c.respDepth with
  | none => true
  | some d => decide (25 * c.width.n ≤ d)

/-- A legal configuration (R10, R133, R139). -/
def configLegal (c : Config) : Bool :=
  variantFits c.width c.variant && isaTargetFits c && decide (neededBits c ≤ c.vectorBits) && respDepthFits c

/-- The initial state of a configuration: an illegal one has none (R10). -/
def initialState (c : Config) : Option State :=
  if configLegal c then some (State.resetOf c) else none

/-- The identification string `KPE1600-N<n>` (R3). -/
def idString (c : Config) : String :=
  "KPE1600-N" ++ (match c.width with | .w1 => "1" | .w2 => "2" | .w4 => "4" | .w8 => "8")

end Sys2Proof.Machine
end

