-- ==== Sys2Proof/Machine/Flags.lean ====
section
/-! DEFINITION. The flags and the STATUS view: the cause codes, LOADED, IDLE and the STATUS word (spec 10_state R23, R27, R28,
R33, 60_exceptions R112). The engine has no condition codes. -/

namespace Sys2Proof.Machine

/-- FCAUSE's code of a cause (R112). -/
def causeCode : Cause → BitVec 4
  | .illegalOpcode => 1
  | .reservedField => 2
  | .roundsRange => 3
  | .lanesRange => 4
  | .laneBound => 5
  | .notLoaded => 6

/-- The cause of a decoder's rejection (R61, R62, R65). -/
def rejectCause : Reject → Cause
  | .illegalOpcode => .illegalOpcode
  | .reservedField => .reservedField

/-- LDST sets LOADED, and nothing but reset clears it (R23). -/
def setLoaded (s : State) : State := { s with loaded := true }

/-- STATUS.IDLE: the command channel holds no word (R33). -/
def isIdle (s : State) : Bool := s.cmd.isEmpty

/-- A flag as a word. -/
def flagWord (b : Bool) : Word := if b then 1 else 0

/-- The STATUS word (R33). -/
def statusWord (s : State) : Word :=
  flagWord s.fault ||| flagWord s.loaded <<< 1 ||| flagWord (isIdle s) <<< 2 ||| s.fcause.setWidth 64 <<< 4

end Sys2Proof.Machine
end

