-- ==== Sys2Proof/Machine/Ops.lean ====
section
/-! DEFINITION. The named operations the commands share: the register file and its canonical view, the two channels, taking a
fault, starting and completing a command, fetching the next one, reset. -/

namespace Sys2Proof.Machine

/-- What a command's meaning answers. -/
abbrev Answer := Host.Outcome State Fault Refusal

/-! ## The register file and the canonical view (R14, R19, R20) -/

/-- Lane l of a canonical state. -/
def laneAt (a : Canon) (l : Nat) : Word := a.getD l 0

/-- The canonical state with these lanes. -/
def canonOf (f : Nat → Word) : Canon := (List.range 25).map f

/-- V[l].e[k]. -/
def elemAt (v : VFile) (l k : Nat) : Word := (v.getD l []).getD k 0

/-- The register file of n instances whose S_k(l) is f k l. -/
def vfileOf (n : Nat) (f : Nat → Nat → Word) : VFile :=
  (List.range 25).map fun l => (List.range n).map fun k => f k l

/-- N. -/
def State.n (s : State) : Nat := s.cfg.width.n

/-- S_k(l), the canonical view (R20). -/
def State.lane (s : State) (k l : Nat) : Word := elemAt s.v l k

/-- S_k. -/
def State.canonical (s : State) (k : Nat) : Canon := canonOf fun l => s.lane k l

/-- Every S_k(l) becomes f k l. -/
def State.setLanes (s : State) (f : Nat → Nat → Word) : State := { s with v := vfileOf s.n f }

/-! ## Instance-major word lists (R67, R68) -/

/-- The words f k i, instance k's together, i ascending: word number len * k + i is f k i. -/
def instanceMajor (n len : Nat) (f : Nat → Nat → Word) : List Word :=
  (List.range n).flatMap fun k => (List.range len).map fun i => f k i

/-- Word number len * k + i of an instance-major list. -/
def instanceWord (ws : List Word) (len k i : Nat) : Word := ws.getD (len * k + i) 0

/-! ## The channels (R29, R30) -/

/-- A region's lateness when c words leave the head of the command channel. -/
def ageRegion (c : Nat) (r : Region) : Region := { r with late := r.late - c }

/-- The race marks when c words leave the head of the command channel: a mark is dropped once every word that was in the
channel at the write is gone. -/
def ageRaces (c : Nat) (m : List (Nat × Nat)) : List (Nat × Nat) :=
  (m.map fun p => (p.1, p.2 - c)).filter fun p => p.2 != 0

/-- The engine consumes c words from the head of the command channel (R25, R29). RPTR wraps: DEDUCED (log 10). -/
def consume (c : Nat) (s : State) : State :=
  { s with
    cmd := s.cmd.drop c
    rptr := s.rptr + BitVec.ofNat 64 c
    readable := s.readable.map (ageRegion c)
    raced := ageRaces c s.raced }

/-- The engine appends response words (R30). -/
def emit (ws : List Word) (s : State) : State := { s with resp := s.resp ++ ws }

/-- c free draws are used up (log 8, log 9). -/
def advanceDraws (c : Nat) (s : State) : State := { s with draws := s.draws + c }

/-- The response channel has e free places (R30). -/
def hasRoom (e : Nat) (s : State) : Bool :=
  match s.cfg.respDepth with
  | none => true
  | some d => decide (s.resp.length + e ≤ d)

/-! ## Faults (R114) -/

/-- Taking a fault with this cause for this header: the fault record is written and nothing else changes (R114). Only reset
undoes it: there is no return from a fault (R115). -/
def takeFault (c : Cause) (h : Word) (s : State) : State :=
  { s with fault := true, fcause := causeCode c, fcmd := h, fidx := s.cmdIdx }

/-- A command raises a fault. FCMD is its header word, which `encode` gives back: DEDUCED from R62 (log 16). -/
def raise (c : Cause) (i : Instr) (s : State) : Answer := .next (takeFault c (encode i) s)

/-! ## Starting and completing a command -/

/-- A command with p payload words and e response words starts when its payload is all in the command channel and its
responses have room; until then the engine holds, with no change of state (R29, R30, R116, R132, R133; log 3). `effect` is
given the payload words. -/
def start (p e : Nat) (s : State) (effect : List Word → Answer) : Answer :=
  if s.cmd.length < 1 + p then .next s
  else if hasRoom e s then effect ((s.cmd.drop 1).take p)
  else .next s

/-- A command with p payload words completes: its header and payload leave the channel and CMD_IDX advances, modulo 2^64
(R24, R25). -/
def complete (p : Nat) (s : State) : State := { consume (1 + p) s with cmdIdx := s.cmdIdx + 1 }

/-! ## Fetching the next command -/

/-- What the engine finds when it looks for its next command. -/
inductive Fetched where
  /-- The configuration is illegal: there is no step (R10). -/
  | illegal
  /-- FAULT = 1: the engine executes nothing (R115). -/
  | halted
  /-- The command channel is empty (R127). -/
  | idle
  /-- The head word fails an encoding check (R113). -/
  | reject (c : Cause) (h : Word)
  /-- The head word is the header of this command. -/
  | run (i : Instr)
  deriving DecidableEq, Repr

/-- The header at the head of the command channel, decoded (R113, R122). -/
def fetchHead (s : State) : Fetched :=
  match s.cmd with
  | [] => .idle
  | h :: _ =>
    match decode h with
    | .command i => .run i
    | .reject r => .reject (rejectCause r) h

/-- The next command, if the engine may run one. -/
def fetch (s : State) : Fetched :=
  if configLegal s.cfg then
    if s.fault then .halted else fetchHead s
  else .illegal

/-- The state with these words at the head of the command channel, in place of as many that stood there. -/
def placeAtHead (ws : List Word) (s : State) : State := { s with cmd := ws ++ s.cmd.drop ws.length }

/-! ## Reset -/

/-- Reset by the Host (R128): every piece of the engine's state takes its reset value, and the configuration stays. Host
memory, the declarations and the count of draws are no state of R38 and stay: DEDUCED (log 14). No word is in the channel, so
no declaration is late and no write races. -/
def resetEngine (s : State) : State :=
  { State.resetOf s.cfg with
    mem := s.mem
    readable := s.readable.map fun r => { r with late := 0 }
    draws := s.draws }

end Sys2Proof.Machine
end

