-- ==== Sys2Proof/Machine/Operands.lean ====
section
/-! DEFINITION. The operand forms: lane ranges and their checks, xor into a lane range, and the words LDXR reads from host
memory (spec 20_memory R41 to R51, 30_encoding R57 to R64, 42_transpose R102, R103). -/

namespace Sys2Proof.Machine

/-! ## Header fields (R57 to R60, R64) -/

/-- ROUNDS is in PERM's range (R58). -/
def roundsOk (rounds : Field) : Bool := decide (rounds.toNat ≤ 24)

/-- LANES is in the range of XORL and LDXR (R60). -/
def absorbLanesOk (lanes : Field) : Bool := decide (1 ≤ lanes.toNat ∧ lanes.toNat ≤ 24)

/-- LANES is in the range of EXTL (R60). -/
def extractLanesOk (lanes : Field) : Bool := decide (1 ≤ lanes.toNat ∧ lanes.toNat ≤ 25)

/-- A block of `count` lanes from OFFSET does not pass lane 24 (R59, R64). -/
def blockFits (offset : Field) (count : Nat) : Bool := decide (offset.toNat + count ≤ 25)

/-! ## Lane ranges -/

/-- Lane x is one of the l lanes from lane o. -/
abbrev inBlock (o l x : Nat) : Prop := o ≤ x ∧ x < o + l

/-- Lane o + i of instance k is xored with w k i for i < l, and every other lane is unchanged (R102, R106). -/
def xorBlock (o l : Nat) (w : Nat → Nat → Word) (s : State) : State :=
  s.setLanes fun k x => if inBlock o l x then s.lane k x ^^^ w k (x - o) else s.lane k x

/-! ## Bytes and words of host memory -/

/-- The address exists and lies in a region declared readable before the header at the head of the channel was appended
(R41, R45; log 5). -/
def admitted (s : State) (a : Nat) : Bool :=
  decide (a < 2 ^ 64) &&
    s.readable.any fun r => r.late == 0 && decide (r.base.toNat ≤ a) && decide (a < r.base.toNat + r.size)

/-- The Host wrote this byte after it appended the header at the head of the channel (R51). -/
def isRaced (s : State) (a : Nat) : Bool := (sortedGet s.raced a).isSome

/-- MemRead(a, 1) of the command at the head of the channel (R41, R50). A racing byte is the free value of draw d (R51;
log 8). A byte that nothing has written is a free value of its address (log 7). -/
def hostByte (s : State) (a d : Nat) : Byte :=
  if isRaced s a then Config.freeByte d
  else (s.mem.read a).getD (Config.unwrittenByte a)

/-- A word of eight bytes, the lowest address in bits [7:0] (R42). -/
def le64 (b : Nat → Byte) : Word :=
  (b 0).setWidth 64 ||| (b 1).setWidth 64 <<< 8 ||| (b 2).setWidth 64 <<< 16 ||| (b 3).setWidth 64 <<< 24
    ||| (b 4).setWidth 64 <<< 32 ||| (b 5).setWidth 64 <<< 40 ||| (b 6).setWidth 64 <<< 48
    ||| (b 7).setWidth 64 <<< 56

/-- LE64(a) (R42). The additions are exact. Byte i uses draw d + i if it races. -/
def le64At (s : State) (a d : Nat) : Word := le64 fun i => hostByte s (a + i) (d + i)

/-! ## LDXR's words -/

/-- The address of the word for lane o + i of a stream with this pointer (R103), an exact integer (R42, R45). -/
def ldxrAddr (base : LxBase) (ptr : Word) (o i : Nat) : Nat :=
  ptr.toNat + match base with | .image => 8 * (o + i) | .packed => 8 * i

/-- All 8 x L x N bytes of an LDXR are admitted (R45). -/
def ldxrAdmitted (s : State) (ptrs : List Word) (o l : Nat) : Bool :=
  (List.range s.n).all fun k => (List.range l).all fun i => (List.range 8).all fun b =>
    admitted s (ldxrAddr s.cfg.lxBase (ptrs.getD k 0) o i + b)

/-- The word an LDXR of l lanes xors into lane o + i of instance k (R102). Byte b of it is byte read number
8 (l k + i) + b of the command. -/
def ldxrWord (s : State) (ptrs : List Word) (o l k i : Nat) : Word :=
  le64At s (ldxrAddr s.cfg.lxBase (ptrs.getD k 0) o i) (s.draws + 8 * (l * k + i))

end Sys2Proof.Machine
end

