-- ==== Sys2Proof/Machine/Container.lean ====
section
/-! DEFINITION. The container operations XORL and EXTL (spec 43_container R105 to R110). -/

namespace Sys2Proof.Machine

/-- XORL O, L (R106): payload word L k + i goes to lane O + i of instance k. -/
def execXorl (offset lanes : Field) (s : State) : Answer :=
  if !absorbLanesOk lanes then raise .lanesRange (.xorl offset lanes) s
  else if !blockFits offset lanes.toNat then raise .laneBound (.xorl offset lanes) s
  else if !s.loaded then raise .notLoaded (.xorl offset lanes) s
  else start (s.n * lanes.toNat) 0 s fun ws =>
    .next (complete (s.n * lanes.toNat)
      (xorBlock offset.toNat lanes.toNat (fun k i => instanceWord ws lanes.toNat k i) s))

/-- EXTL O, L (R109): V is unchanged. -/
def execExtl (offset lanes : Field) (s : State) : Answer :=
  if !extractLanesOk lanes then raise .lanesRange (.extl offset lanes) s
  else if !blockFits offset lanes.toNat then raise .laneBound (.extl offset lanes) s
  else if !s.loaded then raise .notLoaded (.extl offset lanes) s
  else start 0 (s.n * lanes.toNat) s fun _ =>
    .next (complete 0 (emit (instanceMajor s.n lanes.toNat fun k i => s.lane k (offset.toNat + i)) s))

end Sys2Proof.Machine
end

