-- ==== Sys2Proof/Machine/Packer.lean ====
section
/-! DEFINITION. CMPS (spec 41_packer R93, R94). -/

namespace Sys2Proof.Machine

/-- Every lane of every instance equals its payload word (R93). -/
def stateEquals (q : List Word) (s : State) : Bool :=
  (List.range s.n).all fun k => (List.range 25).all fun l => s.lane k l == instanceWord q 25 k l

/-- CMPS draws: the comparison is unequal and CMPS_EXACT = false (R93). -/
def cmpsDraws (q : List Word) (s : State) : Bool := !stateEquals q s && !s.cfg.cmpsExact

/-- The response of CMPS: 1 if equal, else 0; when it draws, the free bit of the current draw (R93, R94; log 9). -/
def cmpsResult (q : List Word) (s : State) : Word :=
  if stateEquals q s then 1
  else if s.cfg.cmpsExact then 0
  else flagWord (Config.freeBit s.draws)

/-- CMPS (R93). V is not written. -/
def execCmps (s : State) : Answer :=
  if !s.loaded then raise .notLoaded .cmps s
  else start (25 * s.n) 1 s fun q =>
    .next (complete (25 * s.n)
      (advanceDraws (if cmpsDraws q s then 1 else 0) (emit [cmpsResult q s] s)))

end Sys2Proof.Machine
end

