-- ==== Sys2Proof/Machine/Keccak.lean ====
section
/-! DEFINITION. The Keccak-f[1600] round function and its reduced-round schedule on a canonical state, and the batched form on
lane-vectors (spec 00_scope R13, R14, 40_permute R74 to R84). -/

namespace Sys2Proof.Machine

/-- rotl64 (R13). -/
def rotl64 (v : Word) (n : Nat) : Word := if n = 0 then v else v <<< n ||| v >>> (64 - n)

/-- The linear index 5y + x of lane (x, y) (R12). -/
def laneIdx (x y : Nat) : Nat := 5 * y + x

/-- A[x, y] (R12). -/
def laneXY (a : Canon) (x y : Nat) : Word := laneAt a (laneIdx x y)

/-! ## Constant state (R35) -/

/-- The rotation offsets, in the order 5y + x (R77). -/
def rhoOffsets : List Nat :=
  [0, 1, 62, 28, 27,
   36, 44, 6, 55, 20,
   3, 10, 43, 25, 39,
   41, 45, 15, 21, 8,
   18, 2, 61, 56, 14]

/-- RHO[x, y] (R77). -/
def rho (x y : Nat) : Nat := rhoOffsets.getD (laneIdx x y) 0

/-- RC[0] .. RC[23] (R80). -/
def roundConstants : List Word :=
  [0x0000000000000001, 0x0000000000008082, 0x800000000000808A, 0x8000000080008000,
   0x000000000000808B, 0x0000000080000001, 0x8000000080008081, 0x8000000000008009,
   0x000000000000008A, 0x0000000000000088, 0x0000000080008009, 0x000000008000000A]
  ++
  [0x000000008000808B, 0x800000000000008B, 0x8000000000008089, 0x8000000000008003,
   0x8000000000008002, 0x8000000000000080, 0x000000000000800A, 0x800000008000000A,
   0x8000000080008081, 0x8000000000008080, 0x0000000080000001, 0x8000000080008008]

/-- RC[i] (R80). -/
def roundConstant (i : Nat) : Word := roundConstants.getD i 0

/-! ## The four transforms of a round -/

/-- C[x], the parity of column x (R75). -/
def columnParity (a : Canon) (x : Nat) : Word :=
  laneXY a x 0 ^^^ laneXY a x 1 ^^^ laneXY a x 2 ^^^ laneXY a x 3 ^^^ laneXY a x 4

/-- D[x], what theta xors into column x (R75). -/
def thetaEffect (a : Canon) (x : Nat) : Word :=
  columnParity a ((x + 4) % 5) ^^^ rotl64 (columnParity a ((x + 1) % 5)) 1

/-- Theta (R75). -/
def theta (a : Canon) : Canon := canonOf fun l => laneAt a l ^^^ thetaEffect a (l % 5)

/-- The source position of destination (X, Y) under the pi move is ((X + 3Y) mod 5, X) (R76). -/
def piSourceX (x y : Nat) : Nat := (x + 3 * y) % 5

/-- Rho and pi, by destination: the offset stays with the source position (R76). -/
def rhoPi (a : Canon) : Canon := canonOf fun l =>
  let x := l % 5
  let y := l / 5
  rotl64 (laneXY a (piSourceX x y) x) (rho (piSourceX x y) x)

/-- Chi (R78). -/
def chi (a : Canon) : Canon := canonOf fun l =>
  let x := l % 5
  let y := l / 5
  laneXY a x y ^^^ (~~~ laneXY a ((x + 1) % 5) y &&& laneXY a ((x + 2) % 5) y)

/-- Iota with round index i (R79). -/
def iota (a : Canon) (i : Nat) : Canon := canonOf fun l =>
  if l = 0 then laneAt a 0 ^^^ roundConstant i else laneAt a l

/-- Round(A, i) (R74). -/
def keccakRound (a : Canon) (i : Nat) : Canon := iota (chi (rhoPi (theta a))) i

/-- KeccakP(S, R): rounds 24 - R .. 23 in increasing order (R81). -/
def keccakP (a : Canon) (r : Nat) : Canon :=
  (List.range r).foldl (fun a j => keccakRound a (24 - r + j)) a

/-! ## The batched form (R14, R84) -/

/-- vxor (R14). -/
def vxor (a b : LaneVec) : LaneVec := List.zipWith (· ^^^ ·) a b

/-- vrotl (R14). -/
def vrotl (a : LaneVec) (n : Nat) : LaneVec := a.map fun w => rotl64 w n

/-- vchi (R14): a XOR ((NOT b) AND c). -/
def vchi (a b c : LaneVec) : LaneVec := List.zipWith (· ^^^ ·) a (List.zipWith (fun p q => ~~~ p &&& q) b c)

/-- vbcast (R14), for n elements. -/
def vbcast (n : Nat) (w : Word) : LaneVec := List.replicate n w

/-- Register l of a register file. -/
def vreg (v : VFile) (l : Nat) : LaneVec := v.getD l []

/-- C[x] of the batched round (R84). -/
def batchedParity (v : VFile) (x : Nat) : LaneVec :=
  vxor (vreg v x) (vxor (vreg v (x + 5)) (vxor (vreg v (x + 10)) (vxor (vreg v (x + 15)) (vreg v (x + 20)))))

/-- D[x] of the batched round (R84). -/
def batchedEffect (v : VFile) (x : Nat) : LaneVec :=
  vxor (batchedParity v ((x + 4) % 5)) (vrotl (batchedParity v ((x + 1) % 5)) 1)

/-- T[l] of the batched round (R84). -/
def batchedTheta (v : VFile) : VFile :=
  (List.range 25).map fun l => vxor (vreg v l) (batchedEffect v (l % 5))

/-- Bv of the batched round, by destination (R84). -/
def batchedRhoPi (t : VFile) : VFile :=
  (List.range 25).map fun l =>
    vrotl (vreg t (laneIdx (piSourceX (l % 5) (l / 5)) (l % 5))) (rho (piSourceX (l % 5) (l / 5)) (l % 5))

/-- V' of the batched round before the round constant (R84). -/
def batchedChi (b : VFile) : VFile :=
  (List.range 25).map fun l =>
    vchi (vreg b l) (vreg b (laneIdx ((l % 5 + 1) % 5) (l / 5))) (vreg b (laneIdx ((l % 5 + 2) % 5) (l / 5)))

/-- The round constant, broadcast into V'[0] (R84). -/
def batchedIota (n : Nat) (v : VFile) (i : Nat) : VFile :=
  (List.range 25).map fun l =>
    if l = 0 then vxor (vreg v 0) (vbcast n (roundConstant i)) else vreg v l

/-- BatchedRound(V, i) for n instances (R84). PERM is stated per instance (R85); this form is for the equivalence. -/
def batchedRound (n : Nat) (v : VFile) (i : Nat) : VFile :=
  batchedIota n (batchedChi (batchedRhoPi (batchedTheta v))) i

/-- Rounds 24 - R .. 23 of the batched form. -/
def batchedKeccakP (n : Nat) (v : VFile) (r : Nat) : VFile :=
  (List.range r).foldl (fun v j => batchedRound n v (24 - r + j)) v

end Sys2Proof.Machine
end

