-- ==== Sys2Proof/Machine/Permute.lean ====
section
/-! DEFINITION. PERM (spec 40_permute R85). -/

namespace Sys2Proof.Machine

/-- Every instance's state becomes KeccakP of it (R85). -/
def permuteAll (r : Nat) (s : State) : State :=
  let states := (List.range s.n).map fun k => keccakP (s.canonical k) r
  s.setLanes fun k l => laneAt (states.getD k []) l

/-- PERM R (R85). R = 0 still needs LOADED and still completes. -/
def execPerm (rounds : Field) (s : State) : Answer :=
  if !roundsOk rounds then raise .roundsRange (.perm rounds) s
  else if !s.loaded then raise .notLoaded (.perm rounds) s
  else start 0 0 s fun _ => .next (complete 0 (permuteAll rounds.toNat s))

end Sys2Proof.Machine
end

