-- ==== Sys2Proof/Machine/Transpose.lean ====
section
/-! DEFINITION. The transpose unit: LDST, STST, FTRN, LDXR (spec 42_transpose R96 to R104). -/

namespace Sys2Proof.Machine

/-- interleave: the register file whose V[l].e[k] is lane l of state k (R96). -/
def interleave (n : Nat) (states : List Canon) : VFile := vfileOf n fun k l => laneAt (states.getD k []) l

/-- uninterleave: state k's lane l is V[l].e[k] (R96). -/
def uninterleave (n : Nat) (v : VFile) : List Canon := (List.range n).map fun k => canonOf fun l => elemAt v l k

/-- The states of an instance-major payload: word 25k + l is lane l of instance k (R67). -/
def payloadStates (n : Nat) (ws : List Word) : List Canon :=
  (List.range n).map fun k => canonOf fun l => instanceWord ws 25 k l

/-- LDST (R97): the only command that does not need LOADED. -/
def execLdst (s : State) : Answer :=
  start (25 * s.n) 0 s fun ws =>
    .next (complete (25 * s.n) (setLoaded { s with v := interleave s.n (payloadStates s.n ws) }))

/-- STST (R98): V is unchanged. -/
def execStst (s : State) : Answer :=
  if !s.loaded then raise .notLoaded .stst s
  else start 0 (25 * s.n) s fun _ =>
    .next (complete 0 (emit (uninterleave s.n s.v).flatten s))

/-- fast_interleave on n lane-vectors: b[i].e[j] = a[j].e[i] (R99). -/
def fastInterleave (n : Nat) (a : List LaneVec) : List LaneVec :=
  (List.range n).map fun i => (List.range n).map fun j => (a.getD j []).getD i 0

/-- V[b] .. V[b+n-1]. -/
def registerBlock (n b : Nat) (v : VFile) : List LaneVec := (List.range n).map fun i => v.getD (b + i) []

/-- The block of N registers from V[b] is transposed, all reads before any write (R100). -/
def transposeBlock (b : Nat) (s : State) : State :=
  let t := fastInterleave s.n (registerBlock s.n b s.v)
  s.setLanes fun k l => if inBlock b s.n l then elemAt t (l - b) k else s.lane k l

/-- FTRN b (R100). -/
def execFtrn (offset : Field) (s : State) : Answer :=
  if !blockFits offset s.n then raise .laneBound (.ftrn offset) s
  else if !s.loaded then raise .notLoaded (.ftrn offset) s
  else start 0 0 s fun _ => .next (complete 0 (transposeBlock offset.toNat s))

/-- LDXR O, L (R102). With a byte that is not admitted it has no step (R45, R116; log 4). -/
def execLdxr (offset lanes : Field) (s : State) : Answer :=
  if !absorbLanesOk lanes then raise .lanesRange (.ldxr offset lanes) s
  else if !blockFits offset lanes.toNat then raise .laneBound (.ldxr offset lanes) s
  else if !s.loaded then raise .notLoaded (.ldxr offset lanes) s
  else start s.n 0 s fun ptrs =>
    if ldxrAdmitted s ptrs offset.toNat lanes.toNat then
      .next (complete s.n (advanceDraws (8 * (lanes.toNat * s.n))
        (xorBlock offset.toNat lanes.toNat (ldxrWord s ptrs offset.toNat lanes.toNat) s)))
    else .fault .ldxrNotAdmitted

end Sys2Proof.Machine
end

