-- ==== Sys2Proof/Machine/Dispatch.lean ====
section
/-! DEFINITION. One arm per command (spec 30_encoding R65). `exec i s` is command i at the head of the command channel of a
running engine: its header is the head word and its payload the words after it. -/

namespace Sys2Proof.Machine
open Sys2Proof

def exec (i : Instr) (s : State) : Host.Outcome State Fault Refusal :=
  match i with
  | .perm rounds => Sys2Proof.Machine.execPerm rounds s
  | .cmps => Sys2Proof.Machine.execCmps s
  | .ldst => Sys2Proof.Machine.execLdst s
  | .stst => Sys2Proof.Machine.execStst s
  | .ftrn offset => Sys2Proof.Machine.execFtrn offset s
  | .ldxr offset lanes => Sys2Proof.Machine.execLdxr offset lanes s
  | .xorl offset lanes => Sys2Proof.Machine.execXorl offset lanes s
  | .extl offset lanes => Sys2Proof.Machine.execExtl offset lanes s

end Sys2Proof.Machine
end

