-- ==== Sys2Proof/Machine/Step.lean ====
section
/-! DEFINITION. One step of the Engine (spec 00_scope R16, R18, 10_state R26, 60_exceptions R113 to R116). The Host's moves
stand in Sys2Proof/Machine/HostMoves.lean. -/

namespace Sys2Proof.Machine

/-- One step. A halted or idle engine leaves the state as it is (R115, R127; log 3), a header that fails an encoding check
takes its fault (R114), and a command runs. An illegal configuration has no step (R10). -/
def step (s : State) : Host.Outcome State Fault Refusal :=
  match fetch s with
  | .illegal => .refused .illegalConfiguration
  | .halted => .next s
  | .idle => .next s
  | .reject c h => .next (takeFault c h s)
  | .run i => exec i s

/-- The state with the command whose first nbits bits are w, and whose later payload words are 0, at the head of the command
channel, where the next step takes its header from: it stands for the Host's appends (R129, R136; log 13). -/
def State.withFetchWord (s : State) (nbits w : Nat) : State := placeAtHead (tableCommand s.cfg.width nbits w) s

end Sys2Proof.Machine
end

