-- ==== Sys2Proof/Machine/Assembler.lean ====
section
/-! DEFINITION. The assembly language (spec 30_encoding R71, R72): text to channel words. Text is a list of characters. What
R71 leaves open (blanks, the case of hexadecimal digits, blank lines, whether payload lines are held against their command, what
else is refused) is DESIGN CHOICE (log 18). -/

namespace Sys2Proof.Machine

/-- The mnemonics of R71 and the pseudo-instructions of R72. -/
inductive AsmOp where
  | perm
  | cmps
  | ldst
  | stst
  | ftrn
  | ldxr
  | xorl
  | extl
  | keccakf
  | xor1
  | ext1
  | absorb
  deriving DecidableEq, Repr

/-- How each is spelled. -/
def asmNames : List (List Char × AsmOp) :=
  [(['p', 'e', 'r', 'm'], .perm), (['c', 'm', 'p', 's'], .cmps), (['l', 'd', 's', 't'], .ldst),
   (['s', 't', 's', 't'], .stst), (['f', 't', 'r', 'n'], .ftrn), (['l', 'd', 'x', 'r'], .ldxr),
   (['x', 'o', 'r', 'l'], .xorl), (['e', 'x', 't', 'l'], .extl), (['k', 'e', 'c', 'c', 'a', 'k', 'f'], .keccakf),
   (['x', 'o', 'r', '1'], .xor1), (['e', 'x', 't', '1'], .ext1), (['a', 'b', 's', 'o', 'r', 'b'], .absorb)]

/-- The directive that introduces payload words (R71). -/
def dwordName : List Char := ['.', 'd', 'w', 'o', 'r', 'd']

/-- An operand that fits its 5-bit field; a value over 31 is refused (R71). -/
def asmField (v : Nat) : Option Field := if v < 32 then some (BitVec.ofNat 5 v) else none

/-- A payload value: any 64-bit value (R70, R71). -/
def asmDword (v : Nat) : Option Word := if v < 2 ^ 64 then some (BitVec.ofNat 64 v) else none

/-- The command a mnemonic with these operands stands for; the pseudo-instructions expand as R72 says. -/
def asmCommand : AsmOp → List Nat → Option Instr
  | .perm, [r] => (asmField r).map .perm
  | .cmps, [] => some .cmps
  | .ldst, [] => some .ldst
  | .stst, [] => some .stst
  | .ftrn, [o] => (asmField o).map .ftrn
  | .ldxr, [o, l] => (asmField o).bind fun o => (asmField l).map (.ldxr o)
  | .xorl, [o, l] => (asmField o).bind fun o => (asmField l).map (.xorl o)
  | .extl, [o, l] => (asmField o).bind fun o => (asmField l).map (.extl o)
  | .keccakf, [] => some (.perm 24)
  | .xor1, [o] => (asmField o).map fun o => .xorl o 1
  | .ext1, [o] => (asmField o).map fun o => .extl o 1
  | .absorb, [l] => (asmField l).map (.xorl 0)
  | _, _ => none

/-! ## Text -/

/-- A blank: a space, a tab or a carriage return. -/
def isBlank (c : Char) : Bool := c == ' ' || c == '\t' || c == '\r'

/-- The text without blanks at its ends. -/
def trimBlanks (t : List Char) : List Char := ((t.dropWhile isBlank).reverse.dropWhile isBlank).reverse

/-- The pieces between separators. -/
def splitAtChar (sep : Char) : List Char → List (List Char)
  | [] => [[]]
  | c :: t =>
    match splitAtChar sep t with
    | [] => [[c]]
    | piece :: rest => if c == sep then [] :: piece :: rest else (c :: piece) :: rest

/-- A digit's value: 0 to 9, and a to f in either case. -/
def digitValue (c : Char) : Option Nat :=
  if '0' ≤ c ∧ c ≤ '9' then some (c.toNat - '0'.toNat)
  else if 'a' ≤ c ∧ c ≤ 'f' then some (c.toNat - 'a'.toNat + 10)
  else if 'A' ≤ c ∧ c ≤ 'F' then some (c.toNat - 'A'.toNat + 10)
  else none

/-- Digits in a base, most significant first, after the value `acc`. -/
def digitsValue (base : Nat) : Nat → List Char → Option Nat
  | acc, [] => some acc
  | acc, c :: t =>
    match digitValue c with
    | some d => if d < base then digitsValue base (acc * base + d) t else none
    | none => none

/-- A decimal or 0x hexadecimal number (R71). -/
def numberValue : List Char → Option Nat
  | [] => none
  | '0' :: 'x' :: c :: t => digitsValue 16 0 (c :: t)
  | c :: t => digitsValue 10 0 (c :: t)

/-- All of them, or none if one is missing. -/
def allSome {α : Type} : List (Option α) → Option (List α)
  | [] => some []
  | none :: _ => none
  | some a :: t => (allSome t).map (a :: ·)

/-- Comma-separated numbers; blank text is no number. -/
def numberList (t : List Char) : Option (List Nat) :=
  match trimBlanks t with
  | [] => some []
  | u => allSome ((splitAtChar ',' u).map fun p => numberValue (trimBlanks p))

/-- The name a line begins with. -/
def lineName (t : List Char) : List Char := t.takeWhile fun c => !isBlank c

/-- What follows the name. -/
def lineOperands (t : List Char) : List Char := t.dropWhile fun c => !isBlank c

/-- The words of a `.dword` line's values: at least one, each of 64 bits (R71). -/
def dwordLine (vs : List Nat) : Option (List Word) :=
  match vs with
  | [] => none
  | v :: t => allSome ((v :: t).map asmDword)

/-- The words of one line: a command's header, a `.dword` line's values, or nothing for a blank line (R71). A `.dword` line is taken
wherever it stands and however many words it gives: it is not held against the P of a command before it, and one with no command
before it is accepted too. DESIGN CHOICE (log 18): R71 names no such refusal. -/
def assembleLine (line : List Char) : Option (List Word) :=
  match trimBlanks (line.takeWhile fun c => c != '#') with
  | [] => some []
  | t =>
    (numberList (lineOperands t)).bind fun vs =>
      if lineName t == dwordName then dwordLine vs
      else
        (asmNames.find? fun p => p.1 == lineName t).bind fun p => (asmCommand p.2 vs).map fun i => [encode i]

/-- The channel words of a program text, one command or `.dword` line a line (R71). Lines are independent of each other, and one
that is refused refuses the text: DESIGN CHOICE (log 18). -/
def assemble (text : List Char) : Option (List Word) :=
  (allSome ((splitAtChar '\n' text).map assembleLine)).map List.flatten

end Sys2Proof.Machine
end

