-- ==== Sys2Proof/Machine/Csr.lean ====
section
/-! DEFINITION. The read-only CSR block (spec 10_state R31 to R34). -/

namespace Sys2Proof.Machine

/-- The VARIANT code of ID_CFG (R32). -/
def variantCode : Variant → Word
  | .scalar => 0
  | .v128 => 1
  | .v256 => 2
  | .v512 => 3
  | .batched => 4

/-- ID_CFG (R32). -/
def idCfgWord (c : Config) : Word :=
  BitVec.ofNat 64 (widthLog2 c.width) ||| variantCode c.variant <<< 4 ||| BitVec.ofNat 64 24 <<< 8
    ||| BitVec.ofNat 64 25 <<< 13

/-- RESP_COUNT, the number of words in the response channel (R31), modulo 2^64: DESIGN CHOICE (log 11). -/
def respCount (s : State) : Word := BitVec.ofNat 64 s.resp.length

/-- The content of the CSR at an offset, for an offset that is a multiple of 8 (R31). Offsets 0x30 .. 0xF8 are reserved and
read as 0. -/
def csrValue (s : State) (offset : BitVec 8) : Word :=
  match offset.toNat with
  | 0x00 => idCfgWord s.cfg
  | 0x08 => statusWord s
  | 0x10 => s.fcmd
  | 0x18 => s.fidx
  | 0x20 => s.cmdIdx
  | 0x28 => respCount s
  | _ => 0

/-- The offset is one the Host may read at (R31, R136). -/
def csrOffsetOk (offset : BitVec 8) : Bool := offset.toNat % 8 == 0

end Sys2Proof.Machine
end

