-- ==== Sys2Proof/Machine/HostMoves.lean ====
section
/-! DEFINITION. What the Host may do (spec 70_reset_and_hazards R128, R136). What it must not do has no move: a CSR write, a
second Host, taking a word out of the command channel (93 U20). -/

namespace Sys2Proof.Machine

/-- The Host's moves (R136; log 12). -/
inductive HostMove where
  /-- Append a word to the command channel (R29). -/
  | appendWord (w : Word)
  /-- Remove the head word of the response channel (R30). -/
  | readResponse
  /-- A 64-bit CSR read (R31, R34). -/
  | readCsr (offset : BitVec 8)
  /-- Write a byte of host memory (R40). -/
  | writeByte (a : Word) (b : Byte)
  /-- Declare `size` bytes from `base` readable (R41). -/
  | declareReadable (base : Word) (size : Nat)
  /-- Reset the engine (R128). -/
  | reset
  deriving DecidableEq, Repr

/-- The race mark a write to this byte leaves: every command now in the channel could read the byte (R51). -/
def markRace (a : Word) (s : State) : List (Nat × Nat) :=
  if s.cmd.isEmpty then sortedErase s.raced a.toNat else sortedSet s.raced a.toNat s.cmd.length

/-- Appending a command word: the Host is never refused a write (R29). -/
def hostAppend (w : Word) (s : State) : State := { s with cmd := s.cmd ++ [w] }

/-- Reading a response: on an empty channel the read waits on the Host's side and changes nothing (R136, D32). -/
def hostReadResponse (s : State) : State := { s with resp := s.resp.drop 1 }

/-- Writing a byte of host memory (R51, R136). -/
def hostWriteByte (a : Word) (b : Byte) (s : State) : State :=
  { s with mem := s.mem.write a b, raced := markRace a s }

/-- Declaring a region readable; a declaration stands from then on (R41; log 6). -/
def hostDeclare (base : Word) (size : Nat) (s : State) : State :=
  { s with readable := s.readable ++ [{ base := base, size := size, late := s.cmd.length }] }

/-- The state after a Host move. -/
def hostAct (m : HostMove) (s : State) : Answer :=
  if configLegal s.cfg then
    match m with
    | .appendWord w => .next (hostAppend w s)
    | .readResponse => .next (hostReadResponse s)
    | .readCsr offset => if csrOffsetOk offset then .next s else .refused .csrReadOutsideInterface
    | .writeByte a b => .next (hostWriteByte a b s)
    | .declareReadable base size => .next (hostDeclare base size s)
    | .reset => .next (resetEngine s)
  else .refused .illegalConfiguration

/-- The word the engine gives back to a Host move, if it gives one (R136). -/
def hostSees (m : HostMove) (s : State) : Option Word :=
  match m with
  | .readResponse => s.resp.head?
  | .readCsr offset => if csrOffsetOk offset then some (csrValue s offset) else none
  | .appendWord _ => none
  | .writeByte _ _ => none
  | .declareReadable _ _ => none
  | .reset => none

end Sys2Proof.Machine
end

