-- ==== Sys2Proof/WellFormed.lean ====
section
/-! DEFINITION. Which commands are legal: the field values of 30_encoding R64, for an engine of width N. -/

namespace Sys2Proof

/-- The command's fields are inside R64's table: the class "legal" of R69. -/
def Instr.wellFormed (n : Width) : Instr → Bool
  | .perm rounds => decide (rounds.toNat ≤ 24)
  | .cmps => true
  | .ldst => true
  | .stst => true
  | .ftrn offset => decide (offset.toNat + n.n ≤ 25)
  | .ldxr offset lanes =>
      decide (1 ≤ lanes.toNat ∧ lanes.toNat ≤ 24 ∧ offset.toNat + lanes.toNat ≤ 25)
  | .xorl offset lanes =>
      decide (1 ≤ lanes.toNat ∧ lanes.toNat ≤ 24 ∧ offset.toNat + lanes.toNat ≤ 25)
  | .extl offset lanes =>
      decide (1 ≤ lanes.toNat ∧ lanes.toNat ≤ 25 ∧ offset.toNat + lanes.toNat ≤ 25)

end Sys2Proof
end

