-- ==== Sys2Proof/Safety.lean ====
section
/-! DEFINITION. The terms that claims use: the check of R113 as the spec writes it, the invariant of the state, runs of the
Engine and the Host, the end of a run. -/

namespace Sys2Proof.Machine

/-! ## The check of R113, on a header's bits -/

/-- `check(h)` of R113 for an engine of width N whose LOADED is given: the cause raised, or none. Its lines are R113's lines, on
unsigned bit fields of h. -/
def headerCheck (n : Width) (loaded : Bool) (h : Word) : Option Cause :=
  let bits := fun lo width : Nat => h.toNat / 2 ^ lo % 2 ^ width
  let op := bits 0 8
  let r := bits 8 5
  let o := bits 16 5
  let l := bits 24 5
  if ¬ (1 ≤ op ∧ op ≤ 8) then some .illegalOpcode
  else if bits 13 3 ≠ 0 ∨ bits 21 3 ≠ 0 ∨ bits 29 35 ≠ 0 then some .reservedField
  else if op ≠ 1 ∧ r ≠ 0 then some .reservedField
  else if ¬ (op = 5 ∨ op = 6 ∨ op = 7 ∨ op = 8) ∧ o ≠ 0 then some .reservedField
  else if ¬ (op = 6 ∨ op = 7 ∨ op = 8) ∧ l ≠ 0 then some .reservedField
  else if op = 1 ∧ r > 24 then some .roundsRange
  else if (op = 6 ∨ op = 7) ∧ (l < 1 ∨ l > 24) then some .lanesRange
  else if op = 8 ∧ (l < 1 ∨ l > 25) then some .lanesRange
  else if (op = 6 ∨ op = 7 ∨ op = 8) ∧ o + l > 25 then some .laneBound
  else if op = 5 ∧ o + n.n > 25 then some .laneBound
  else if op ≠ 3 ∧ loaded = false then some .notLoaded
  else none

/-- The command needs LOADED = 1: every one but LDST (R23, R112). -/
def needsLoaded : Instr → Bool
  | .perm _ => true
  | .cmps => true
  | .ldst => false
  | .stst => true
  | .ftrn _ => true
  | .ldxr _ _ => true
  | .xorl _ _ => true
  | .extl _ _ => true

/-- Command i stands at the head of the channel with this payload and these words behind it (R55). -/
def State.hasCommand (s : State) (i : Instr) (payload rest : List Word) : Prop :=
  s.cmd = encode i :: (payload ++ rest) ∧ payload.length = payloadWords s.cfg.width i

/-- Command i passes the checks of R113 that concern its fields and LOADED, and has room for its responses (R30). -/
def State.canRun (s : State) (i : Instr) : Prop :=
  i.wellFormed s.cfg.width = true ∧ (needsLoaded i = true → s.loaded = true) ∧ hasRoom (responseWords s.cfg.width i) s = true

/-! ## The invariant -/

/-- V is 25 registers of N elements (R19). -/
abbrev VFile.shaped (n : Nat) (v : VFile) : Prop := v.length = 25 ∧ ∀ r ∈ v, r.length = n

/-- While FAULT = 0 the fault record is clear, and FCAUSE is never a reserved code (R28, R112). -/
abbrev State.recordOk (s : State) : Prop :=
  if s.fault then 1 ≤ s.fcause.toNat ∧ s.fcause.toNat ≤ 6 else s.fcause = 0 ∧ s.fcmd = 0 ∧ s.fidx = 0

/-- The response channel is within its capacity (R30). -/
abbrev State.respOk (s : State) : Prop := hasRoom 0 s = true

/-- The race marks are in canonical form and no older than the channel: each counts at least one word that is still in it. -/
abbrev State.racesOk (s : State) : Prop :=
  rising s.raced ∧ ∀ p ∈ s.raced, 1 ≤ p.2 ∧ p.2 ≤ s.cmd.length ∧ p.1 < 2 ^ 64

/-- A declaration is late by no more words than the channel holds. -/
abbrev State.regionsOk (s : State) : Prop := ∀ r ∈ s.readable, r.late ≤ s.cmd.length

/-- What holds of every state a run reaches. -/
structure State.Inv (s : State) : Prop where
  legal : configLegal s.cfg = true
  shape : VFile.shaped s.n s.v
  record : s.recordOk
  responses : s.respOk
  memory : Memory.wf s.mem
  races : s.racesOk
  regions : s.regionsOk

/-! ## What a completed command leaves alone -/

/-- The parts of the state that no command writes at all: the configuration, the fault record, host memory (R24, R28, R40,
R46). -/
structure State.sameFixed (s t : State) : Prop where
  cfg : t.cfg = s.cfg
  fault : t.fault = s.fault
  fcause : t.fcause = s.fcause
  fcmd : t.fcmd = s.fcmd
  fidx : t.fidx = s.fidx
  mem : ∀ a, t.mem.read a = s.mem.read a

/-- t is s with a command of p payload words completed: what completion does to the channel and the counters, and all that it
leaves alone. V, LOADED, the responses and the draws are not spoken of. -/
structure State.retired (p : Nat) (s t : State) : Prop where
  fixed : s.sameFixed t
  cmd : t.cmd = s.cmd.drop (1 + p)
  rptr : t.rptr = s.rptr + BitVec.ofNat 64 (1 + p)
  cmdIdx : t.cmdIdx = s.cmdIdx + 1
  readable : t.readable = s.readable.map (ageRegion (1 + p))
  raced : t.raced = ageRaces (1 + p) s.raced

/-- V is the same, on all 25 lanes of all N instances. -/
def State.sameLanes (s t : State) : Prop := ∀ k l, k < s.n → l < 25 → t.lane k l = s.lane k l

/-! ## Runs of the Engine and the Host (R18, R50, R136) -/

/-- A move of either agent. -/
inductive Move where
  | engine
  | host (m : HostMove)
  deriving DecidableEq, Repr

/-- One move. -/
def applyMove : Move → State → Answer
  | .engine, s => step s
  | .host m, s => hostAct m s

/-- Moves in order, up to the first that has no next state. -/
def runMoves : List Move → State → Answer
  | [], s => .next s
  | m :: ms, s =>
    match applyMove m s with
    | .next t => runMoves ms t
    | .fault r => .fault r
    | .refused r => .refused r

/-! ## The end of a run (R137) -/

/-- A run of a finite stream has ended successfully: every word of it is consumed, FAULT = 0, and no command is held, since
none is left in the channel (R137). -/
def State.endsRun (s : State) (stream : List Word) : Prop :=
  s.rptr = BitVec.ofNat 64 stream.length ∧ s.cmd = [] ∧ s.fault = false

/-- What is observed of a run that ended successfully (R137). -/
structure Observation where
  v : Option VFile
  loaded : Bool
  cmdIdx : Word
  responses : List Word
  deriving DecidableEq, Repr

/-- The response words the Host reads during these moves. -/
def responsesRead : List Move → State → List Word
  | [], _ => []
  | m :: ms, s =>
    (match m with
      | .host .readResponse => (hostSees .readResponse s).toList
      | _ => []) ++
    (match applyMove m s with
      | .next t => responsesRead ms t
      | .fault _ => []
      | .refused _ => [])

/-- V if LOADED = 1, LOADED, CMD_IDX, and the response words emitted, which are those the Host has read and those still in the
channel. -/
def State.observe (read : List Word) (s : State) : Observation :=
  { v := if s.loaded then some s.v else none, loaded := s.loaded, cmdIdx := s.cmdIdx, responses := read ++ s.resp }

end Sys2Proof.Machine
end

