-- ==== Sys2Proof/Certificates/Slice0/Obligations.lean ====
section
/-! DEFINITION. The statements for the provers. Each docstring names the rules of spec/ the statement formalises, and any log
entry (notes/assumptions) a clause rests on. -/

open Sys2Proof Sys2Proof.Machine

/-! ## Encoding -/

/-- R56, R57, R62: decoding the header of a command gives the command back, for every command and every value of its
fields. -/
def Obligations.DecodeOfEncode : Prop := ∀ i : Instr, decode (encode i) = .command i

/-- R62: a header word that decodes to a command is that command's one header. -/
def Obligations.EncodeOfDecode : Prop := ∀ (h : Word) (i : Instr), decode h = .command i → encode i = h

/-- R73: the header words of the common forms decode to the commands they are listed for. -/
def Obligations.CommonHeaderWords : Prop :=
  decode 0x0000000000001801 = .command (.perm 24) ∧
  decode 0x0000000000000001 = .command (.perm 0) ∧
  decode 0x0000000000000101 = .command (.perm 1) ∧
  decode 0x0000000000000002 = .command .cmps ∧
  decode 0x0000000000000003 = .command .ldst ∧
  decode 0x0000000000000004 = .command .stst ∧
  decode 0x0000000000000005 = .command (.ftrn 0) ∧
  decode 0x0000000000040005 = .command (.ftrn 4) ∧
  decode 0x0000000011000006 = .command (.ldxr 0 17) ∧
  decode 0x0000000006000007 = .command (.xorl 0 6) ∧
  decode 0x0000000015000007 = .command (.xorl 0 21) ∧
  decode 0x0000000003160007 = .command (.xorl 22 3) ∧
  decode 0x0000000019000008 = .command (.extl 0 25)

/-- R73: the assembly lines of the common forms assemble to the header words they are listed with. -/
def Obligations.CommonAssemblyLines : Prop :=
  assembleLine "perm 24".toList = some [0x0000000000001801] ∧
  assembleLine "keccakf".toList = some [0x0000000000001801] ∧
  assembleLine "perm 0".toList = some [0x0000000000000001] ∧
  assembleLine "perm 1".toList = some [0x0000000000000101] ∧
  assembleLine "cmps".toList = some [0x0000000000000002] ∧
  assembleLine "ldst".toList = some [0x0000000000000003] ∧
  assembleLine "stst".toList = some [0x0000000000000004] ∧
  assembleLine "ftrn 0".toList = some [0x0000000000000005] ∧
  assembleLine "ftrn 4".toList = some [0x0000000000040005] ∧
  assembleLine "ldxr 0, 17".toList = some [0x0000000011000006] ∧
  assembleLine "xorl 0, 6".toList = some [0x0000000006000007] ∧
  assembleLine "absorb 6".toList = some [0x0000000006000007] ∧
  assembleLine "xorl 0, 21".toList = some [0x0000000015000007] ∧
  assembleLine "xorl 22, 3".toList = some [0x0000000003160007] ∧
  assembleLine "extl 0, 25".toList = some [0x0000000019000008]

/-- R72: each pseudo-instruction is its expansion, for every operand, the refused ones too. -/
def Obligations.PseudoInstructionsExpand : Prop :=
  asmCommand .keccakf [] = asmCommand .perm [24] ∧
  (∀ o, asmCommand .xor1 [o] = asmCommand .xorl [o, 1]) ∧
  (∀ o, asmCommand .ext1 [o] = asmCommand .extl [o, 1]) ∧
  ∀ l, asmCommand .absorb [l] = asmCommand .xorl [0, l]

/-! ## The step -/

/-- R15, R113, R122: when the word at the head of the channel decodes to a command, the step of a running engine is that
command's meaning, with nothing around it: the meaning itself moves past the command's words. -/
def Obligations.StepRunsDecodedCommand : Prop :=
  ∀ (s : State) (h : Word) (rest : List Word) (i : Instr), configLegal s.cfg = true → s.fault = false →
    s.cmd = h :: rest → decode h = .command i → step s = exec i s

/-- R113, R114: the step raises the first failing check of R113, in its order, without looking at the payload; it writes the
fault record and nothing else. Where no check fails the header is a legal command, its meaning runs, and no fault is raised. -/
def Obligations.StepFollowsCheckOrder : Prop :=
  ∀ (s : State) (h : Word) (rest : List Word), configLegal s.cfg = true → s.fault = false → s.cmd = h :: rest →
    match headerCheck s.cfg.width s.loaded h with
    | some c => step s = .next { s with fault := true, fcause := causeCode c, fcmd := h, fidx := s.cmdIdx }
    | none => ∃ i, decode h = .command i ∧ i.wellFormed s.cfg.width = true ∧ step s = exec i s ∧
        ∀ t, step s = .next t → t.fault = false

/-- R112: the codes of the six causes. -/
def Obligations.CauseCodesOfTable : Prop :=
  causeCode .illegalOpcode = 1 ∧ causeCode .reservedField = 2 ∧ causeCode .roundsRange = 3 ∧ causeCode .lanesRange = 4 ∧
    causeCode .laneBound = 5 ∧ causeCode .notLoaded = 6

/-- R61, R65: a reserved opcode, 0x00 or 0x09 to 0xFF, faults with ILLEGAL_OPCODE whatever its other bits are; a header of a
defined opcode with any reserved bit set faults with RESERVED_FIELD. -/
def Obligations.ReservedEncodingsFault : Prop :=
  ∀ (s : State) (h : Word) (rest : List Word), configLegal s.cfg = true → s.fault = false → s.cmd = h :: rest →
    (((opField h).toNat = 0 ∨ 9 ≤ (opField h).toNat) → step s = .next (takeFault .illegalOpcode h s)) ∧
    (1 ≤ (opField h).toNat → (opField h).toNat ≤ 8 → (rsvA h ≠ 0 ∨ rsvB h ≠ 0 ∨ rsvC h ≠ 0) →
      step s = .next (takeFault .reservedField h s))

/-- R23, R112: every command but LDST whose fields are legal faults with NOT_LOADED while LOADED = 0. -/
def Obligations.UnloadedCommandFaults : Prop :=
  ∀ (s : State) (i : Instr), i.wellFormed s.cfg.width = true → i ≠ .ldst → s.loaded = false →
    exec i s = .next (takeFault .notLoaded (encode i) s)

/-- R64, R112: where the fields of a command are outside R64's table its meaning takes the fault of that table, whether LOADED
is set or not. -/
def Obligations.FieldRangeFaults : Prop :=
  (∀ (s : State) (r : Field), 24 < r.toNat → exec (.perm r) s = .next (takeFault .roundsRange (encode (.perm r)) s)) ∧
  (∀ (s : State) (o : Field), 25 < o.toNat + s.n → exec (.ftrn o) s = .next (takeFault .laneBound (encode (.ftrn o)) s)) ∧
  (∀ (s : State) (o l : Field), (l.toNat < 1 ∨ 24 < l.toNat) →
    exec (.ldxr o l) s = .next (takeFault .lanesRange (encode (.ldxr o l)) s) ∧
    exec (.xorl o l) s = .next (takeFault .lanesRange (encode (.xorl o l)) s)) ∧
  (∀ (s : State) (o l : Field), 1 ≤ l.toNat → l.toNat ≤ 24 → 25 < o.toNat + l.toNat →
    exec (.ldxr o l) s = .next (takeFault .laneBound (encode (.ldxr o l)) s) ∧
    exec (.xorl o l) s = .next (takeFault .laneBound (encode (.xorl o l)) s)) ∧
  (∀ (s : State) (o l : Field), (l.toNat < 1 ∨ 25 < l.toNat) →
    exec (.extl o l) s = .next (takeFault .lanesRange (encode (.extl o l)) s)) ∧
  ∀ (s : State) (o l : Field), 1 ≤ l.toNat → l.toNat ≤ 25 → 25 < o.toNat + l.toNat →
    exec (.extl o l) s = .next (takeFault .laneBound (encode (.extl o l)) s)

/-- R115, R127, and log 3 for the form of a step that does nothing: a halted engine, and one whose command channel is empty,
keeps its state. -/
def Obligations.HaltedOrIdleKeepsState : Prop :=
  ∀ s : State, configLegal s.cfg = true → (s.fault = true ∨ s.cmd = []) → step s = .next s

/-- R10, R133, R139: an illegal configuration has no initial state and no step, and these are the legal ones: VARIANT is BATCHED
exactly for N > 1, the hardware has the register width the engine needs, and a finite response channel holds 25N words. That NEON
and WASM SIMD need 128 bits is presumed (log 15); that an ISA_TARGET stands exactly with BATCHED is deduced (log 17). -/
def Obligations.IllegalConfigurationRefused : Prop :=
  (∀ c : Config, configLegal c = false → initialState c = none) ∧
    (∀ s : State, configLegal s.cfg = false → step s = .refused .illegalConfiguration) ∧
    ∀ c : Config, configLegal c = true ↔
      (c.variant = .batched ↔ c.width ≠ .w1) ∧ (c.isaTarget ≠ none ↔ c.variant = .batched) ∧
      (match c.variant, c.isaTarget with
        | .scalar, _ => 0
        | .v128, _ => 128
        | .v256, _ => 256
        | .v512, _ => 512
        | .batched, some .x86v128 => 128
        | .batched, some .x86v256 => 256
        | .batched, some .x86v512 => 512
        | .batched, some .armNeon => 128
        | .batched, some .wasmSimd => 128
        | .batched, some .loongArch128 => 128
        | .batched, some .loongArch256 => 256
        | .batched, some .portableArray => 0
        | .batched, none => 0) ≤ c.vectorBits ∧
      ∀ d, c.respDepth = some d → 25 * c.width.n ≤ d

/-- R132: a command whose header passes the checks holds, with no change of state, until its payload is all in the channel. -/
def Obligations.PayloadHold : Prop :=
  ∀ (s : State) (h : Word) (rest : List Word) (i : Instr), configLegal s.cfg = true → s.fault = false →
    s.cmd = h :: rest → decode h = .command i → headerCheck s.cfg.width s.loaded h = none →
    rest.length < payloadWords s.cfg.width i → step s = .next s

/-- R133: a command whose header passes the checks holds, with no change of state, while its response words have no room. -/
def Obligations.ResponseHold : Prop :=
  ∀ (s : State) (h : Word) (rest : List Word) (i : Instr) (d : Nat), configLegal s.cfg = true → s.fault = false →
    s.cmd = h :: rest → decode h = .command i → headerCheck s.cfg.width s.loaded h = none →
    s.cfg.respDepth = some d → d < s.resp.length + responseWords s.cfg.width i → step s = .next s

/-! ## Results: each command completes, with this next state

Completion is `State.retired`, in which RPTR advances modulo 2^64: its wrap is deduced (log 10). -/

/-- R85, R24, R25: PERM R completes; every instance's state is KeccakP of what it was, and all else is left alone. -/
def Obligations.PermResult : Prop :=
  ∀ (s : State) (r : Field) (rest : List Word), s.hasCommand (.perm r) [] rest → s.canRun (.perm r) →
    ∃ t, exec (.perm r) s = .next t ∧ s.retired 0 t ∧ t.cmd = rest ∧
      (∀ k l, k < s.n → l < 25 → t.lane k l = laneAt (keccakP (s.canonical k) r.toNat) l) ∧
      t.loaded = s.loaded ∧ t.resp = s.resp ∧ t.draws = s.draws

/-- R93, R94: CMPS completes and emits one word: 1 if every lane equals its payload word; else 0 if CMPS_EXACT, and otherwise
0 or 1, the bit of the current free draw (log 9). V is unchanged. -/
def Obligations.CmpsResult : Prop :=
  ∀ (s : State) (q rest : List Word), s.hasCommand .cmps q rest → s.canRun .cmps →
    ∃ t w, exec .cmps s = .next t ∧ s.retired (25 * s.n) t ∧ t.cmd = rest ∧ t.resp = s.resp ++ [w] ∧
      ((∀ k l, k < s.n → l < 25 → s.lane k l = instanceWord q 25 k l) → w = 1 ∧ t.draws = s.draws) ∧
      (¬ (∀ k l, k < s.n → l < 25 → s.lane k l = instanceWord q 25 k l) → s.cfg.cmpsExact = true →
        w = 0 ∧ t.draws = s.draws) ∧
      (¬ (∀ k l, k < s.n → l < 25 → s.lane k l = instanceWord q 25 k l) → s.cfg.cmpsExact = false →
        (w = 0 ∨ w = 1) ∧ w = flagWord (Config.freeBit s.draws) ∧ t.draws = s.draws + 1) ∧
      t.v = s.v ∧ t.loaded = s.loaded

/-- R97: LDST completes; S_k(l) is payload word 25k + l and LOADED is 1, whether it was or not. -/
def Obligations.LdstResult : Prop :=
  ∀ (s : State) (q rest : List Word), s.hasCommand .ldst q rest → s.canRun .ldst →
    ∃ t, exec .ldst s = .next t ∧ s.retired (25 * s.n) t ∧ t.cmd = rest ∧
      (∀ k l, k < s.n → l < 25 → some (t.lane k l) = q[25 * k + l]?) ∧
      t.loaded = true ∧ t.resp = s.resp ∧ t.draws = s.draws

/-- R98: STST completes; it emits 25N words, word 25k + l being S_k(l), and leaves V alone. -/
def Obligations.StstResult : Prop :=
  ∀ (s : State) (rest : List Word), s.hasCommand .stst [] rest → s.canRun .stst →
    ∃ t ws, exec .stst s = .next t ∧ s.retired 0 t ∧ t.cmd = rest ∧ t.resp = s.resp ++ ws ∧ ws.length = 25 * s.n ∧
      (∀ k l, k < s.n → l < 25 → ws[25 * k + l]? = some (s.lane k l)) ∧
      t.v = s.v ∧ t.loaded = s.loaded ∧ t.draws = s.draws

/-- R100: FTRN b completes; the new S_j(b+i) is the old S_i(b+j), and lanes outside b .. b+N-1 are unchanged. -/
def Obligations.FtrnResult : Prop :=
  ∀ (s : State) (b : Field) (rest : List Word), s.hasCommand (.ftrn b) [] rest → s.canRun (.ftrn b) →
    ∃ t, exec (.ftrn b) s = .next t ∧ s.retired 0 t ∧ t.cmd = rest ∧
      (∀ i j, i < s.n → j < s.n → t.lane j (b.toNat + i) = s.lane i (b.toNat + j)) ∧
      (∀ k l, k < s.n → l < 25 → (l < b.toNat ∨ b.toNat + s.n ≤ l) → t.lane k l = s.lane k l) ∧
      t.loaded = s.loaded ∧ t.resp = s.resp ∧ t.draws = s.draws

/-- R102, R103, R45: LDXR O, L completes when all its bytes are admitted; lane O+i of instance k is xored with the
little-endian word at ptr_k + 8(O+i) (IMAGE) or ptr_k + 8i (PACKED), an exact address; other lanes are unchanged. Byte b of
that word is read number 8(Lk+i)+b of the command, the index of its free draw if it races (log 8); a byte that nothing
has written is free too (log 7). -/
def Obligations.LdxrResult : Prop :=
  ∀ (s : State) (o l : Field) (ptrs rest : List Word), s.hasCommand (.ldxr o l) ptrs rest → s.canRun (.ldxr o l) →
    (∀ k i b, k < s.n → i < l.toNat → b < 8 →
      admitted s ((ptrs.getD k 0).toNat + (if s.cfg.lxBase = .image then 8 * (o.toNat + i) else 8 * i) + b) = true) →
    ∃ t, exec (.ldxr o l) s = .next t ∧ s.retired s.n t ∧ t.cmd = rest ∧
      (∀ k i, k < s.n → i < l.toNat → t.lane k (o.toNat + i) = s.lane k (o.toNat + i) ^^^
        le64 fun b => hostByte s
          ((ptrs.getD k 0).toNat + (if s.cfg.lxBase = .image then 8 * (o.toNat + i) else 8 * i) + b)
          (s.draws + 8 * (l.toNat * k + i) + b)) ∧
      (∀ k x, k < s.n → x < 25 → (x < o.toNat ∨ o.toNat + l.toNat ≤ x) → t.lane k x = s.lane k x) ∧
      t.loaded = s.loaded ∧ t.resp = s.resp ∧ t.draws = s.draws + 8 * (l.toNat * s.n)

/-- R45, R104, R116: an LDXR with a byte that is not admitted is stuck: it has no next state and takes no fault (log 4 for the
form of a stop). -/
def Obligations.LdxrStuckWithoutAdmission : Prop :=
  ∀ (s : State) (o l : Field) (ptrs rest : List Word) (k i b : Nat),
    s.hasCommand (.ldxr o l) ptrs rest → s.canRun (.ldxr o l) → k < s.n → i < l.toNat → b < 8 →
    admitted s ((ptrs.getD k 0).toNat + (if s.cfg.lxBase = .image then 8 * (o.toNat + i) else 8 * i) + b) = false →
    exec (.ldxr o l) s = .fault .ldxrNotAdmitted

/-- R106, R107: XORL O, L completes; lane O+i of instance k is xored with payload word Lk + i, and every lane outside
O .. O+L-1 is unchanged. -/
def Obligations.XorlResult : Prop :=
  ∀ (s : State) (o l : Field) (ws rest : List Word), s.hasCommand (.xorl o l) ws rest → s.canRun (.xorl o l) →
    ∃ t, exec (.xorl o l) s = .next t ∧ s.retired (s.n * l.toNat) t ∧ t.cmd = rest ∧
      (∀ k i, k < s.n → i < l.toNat →
        t.lane k (o.toNat + i) = s.lane k (o.toNat + i) ^^^ ws.getD (l.toNat * k + i) 0) ∧
      (∀ k x, k < s.n → x < 25 → (x < o.toNat ∨ o.toNat + l.toNat ≤ x) → t.lane k x = s.lane k x) ∧
      t.loaded = s.loaded ∧ t.resp = s.resp ∧ t.draws = s.draws

/-- R109: EXTL O, L completes; it emits N x L words, word Lk + i being S_k(O+i), and leaves V alone. -/
def Obligations.ExtlResult : Prop :=
  ∀ (s : State) (o l : Field) (rest : List Word), s.hasCommand (.extl o l) [] rest → s.canRun (.extl o l) →
    ∃ t ws, exec (.extl o l) s = .next t ∧ s.retired 0 t ∧ t.cmd = rest ∧ t.resp = s.resp ++ ws ∧
      ws.length = s.n * l.toNat ∧
      (∀ k i, k < s.n → i < l.toNat → ws[l.toNat * k + i]? = some (s.lane k (o.toNat + i))) ∧
      t.v = s.v ∧ t.loaded = s.loaded ∧ t.draws = s.draws

/-! ## The round function -/

/-- R75: theta: the parity C[x] of each column, D[x] = C[x-1] XOR rotl64(C[x+1], 1), indices mod 5, xored into column x. -/
def Obligations.ThetaRule : Prop :=
  ∀ (a : Canon) (x y : Nat), x < 5 → y < 5 →
    let c := fun x => laneXY a x 0 ^^^ laneXY a x 1 ^^^ laneXY a x 2 ^^^ laneXY a x 3 ^^^ laneXY a x 4
    let d := fun x => c ((x + 4) % 5) ^^^ rotl64 (c ((x + 1) % 5)) 1
    laneXY (theta a) x y = laneXY a x y ^^^ d x

/-- R76: the fused rho and pi, by source position, by destination position, and move by move as the table lists them. -/
def Obligations.RhoPiRule : Prop :=
  (∀ (a : Canon) (x y : Nat), x < 5 → y < 5 →
    laneXY (rhoPi a) y ((2 * x + 3 * y) % 5) = rotl64 (laneXY a x y) (rho x y)) ∧
  (∀ (a : Canon) (x y : Nat), x < 5 → y < 5 →
    laneXY (rhoPi a) x y = rotl64 (laneXY a ((x + 3 * y) % 5) x) (rho ((x + 3 * y) % 5) x)) ∧
  ∀ (a : Canon) (m : Nat × Nat × Nat),
    m ∈ [(0, 0, 0), (1, 10, 1), (2, 20, 62), (3, 5, 28), (4, 15, 27), (5, 16, 36), (6, 1, 44), (7, 11, 6), (8, 21, 55),
         (9, 6, 20), (10, 7, 3), (11, 17, 10), (12, 2, 43)] ++
        [(13, 12, 25), (14, 22, 39), (15, 23, 41), (16, 8, 45), (17, 18, 15), (18, 3, 21), (19, 13, 8), (20, 14, 18),
         (21, 24, 2), (22, 9, 61), (23, 19, 56), (24, 4, 14)] →
    laneAt (rhoPi a) m.2.1 = rotl64 (laneAt a m.1) m.2.2

/-- R77: the offset table, row by row; that it is the result of its generator along the orbit of (1, 0); and that every entry is
below 64. -/
def Obligations.RhoGenerator : Prop :=
  ((List.range 5).map fun y => (List.range 5).map fun x => rho x y) =
    [[0, 1, 62, 28, 27], [36, 44, 6, 55, 20], [3, 10, 43, 25, 39], [41, 45, 15, 21, 8], [18, 2, 61, 56, 14]] ∧
  rho 0 0 = 0 ∧
  (∀ t, t < 24 →
    let p := (fun q : Nat × Nat => (q.2, (2 * q.1 + 3 * q.2) % 5))^[t] (1, 0)
    rho p.1 p.2 = (t + 1) * (t + 2) / 2 % 64) ∧
  ∀ x y, x < 5 → y < 5 → rho x y < 64

/-- R78: chi, every output of a row from the row's inputs. -/
def Obligations.ChiRule : Prop :=
  ∀ (a : Canon) (x y : Nat), x < 5 → y < 5 →
    laneXY (chi a) x y = laneXY a x y ^^^ (~~~ laneXY a ((x + 1) % 5) y &&& laneXY a ((x + 2) % 5) y)

/-- R79: iota. -/
def Obligations.IotaRule : Prop :=
  ∀ (a : Canon) (i : Nat), laneXY (iota a i) 0 0 = laneXY a 0 0 ^^^ roundConstant i ∧
    ∀ x y, x < 5 → y < 5 → ¬ (x = 0 ∧ y = 0) → laneXY (iota a i) x y = laneXY a x y

/-- R80: the 24 round constants, and their generator: bit 2^j - 1 of RC[i] is rc(j + 7i) for j = 0..6 and every other bit is 0,
where rc(t) is bit 0 of the register of the LFSR x^8 + x^6 + x^5 + x^4 + 1, started at 1, after t mod 255 steps. -/
def Obligations.RoundConstantGenerator : Prop :=
  (List.range 24).map roundConstant =
    [0x0000000000000001, 0x0000000000008082, 0x800000000000808A, 0x8000000080008000, 0x000000000000808B,
     0x0000000080000001, 0x8000000080008081, 0x8000000000008009, 0x000000000000008A, 0x0000000000000088,
     0x0000000080008009, 0x000000008000000A] ++
    [0x000000008000808B, 0x800000000000008B, 0x8000000000008089, 0x8000000000008003, 0x8000000000008002,
     0x8000000000000080, 0x000000000000800A, 0x800000008000000A, 0x8000000080008081, 0x8000000000008080,
     0x0000000080000001, 0x8000000080008008] ∧
  ∀ i b, i < 24 → b < 64 →
    (roundConstant i).getLsbD b =
      (List.range 7).any fun j => b == 2 ^ j - 1 &&
        ((fun r : Nat => if r < 128 then 2 * r else Nat.xor (2 * r) 0x171)^[(j + 7 * i) % 255] 1) % 2 == 1

/-- R81: no round is the identity, and R + 1 rounds are round 23 - R followed by R rounds: the schedule is the tail
24-R .. 23 in increasing order. -/
def Obligations.ScheduleIsTheTail : Prop :=
  (∀ a : Canon, keccakP a 0 = a) ∧
    ∀ (a : Canon) (r : Nat), r < 24 → keccakP a (r + 1) = keccakP (keccakRound a (23 - r)) r

/-- R83: KeccakP loses nothing: it is injective on canonical states for every R. (The spec marks this as general knowledge.) -/
def Obligations.PermutationIsInjective : Prop :=
  ∀ (r : Nat) (a b : Canon), r ≤ 24 → a.length = 25 → b.length = 25 → keccakP a r = keccakP b r → a = b

/-- R84, R86: the batched round on lane-vectors is the scalar round on every instance, and PERM's register file is that of the
batched form. -/
def Obligations.BatchedEqualsScalar : Prop :=
  (∀ (n : Nat) (v : VFile) (i k : Nat), VFile.shaped n v → k < n →
    (VFile.shaped n (batchedRound n v i) ∧
      canonOf (fun l => elemAt (batchedRound n v i) l k) = keccakRound (canonOf fun l => elemAt v l k) i)) ∧
  ∀ (s : State) (r : Nat), VFile.shaped s.n s.v → r ≤ 24 → (permuteAll r s).v = batchedKeccakP s.n s.v r

/-! ## Laws of the commands -/

/-- R96: what interleave and uninterleave give, and that they are inverse, both ways. -/
def Obligations.InterleaveInverse : Prop :=
  ∀ n : Nat,
    (∀ (states : List Canon) (l k : Nat), l < 25 → k < n →
      elemAt (interleave n states) l k = laneAt (states.getD k []) l) ∧
    (∀ (v : VFile) (l k : Nat), l < 25 → k < n → laneAt ((uninterleave n v).getD k []) l = elemAt v l k) ∧
    (∀ states : List Canon, states.length = n → (∀ a ∈ states, a.length = 25) →
      uninterleave n (interleave n states) = states) ∧
    ∀ v : VFile, VFile.shaped n v → interleave n (uninterleave n v) = v

/-- R96, R97, R98: LDST and then STST emit the payload of the LDST, in two steps. -/
def Obligations.LoadThenStoreRoundTrip : Prop :=
  ∀ (s : State) (ws rest : List Word), configLegal s.cfg = true → s.fault = false →
    s.hasCommand .ldst ws (encode .stst :: rest) → hasRoom (25 * s.n) s = true →
    ∃ t u, step s = .next t ∧ step t = .next u ∧ u.resp = s.resp ++ ws ∧ u.cmd = rest ∧ u.v = t.v

/-- R101: FTRN b twice leaves V as it was, in two steps; and FTRN b on rows of instance-major data is interleave. -/
def Obligations.TransposeLaws : Prop :=
  (∀ (s : State) (b : Field) (rest : List Word), configLegal s.cfg = true → s.fault = false →
    s.hasCommand (.ftrn b) [] (encode (.ftrn b) :: rest) → s.canRun (.ftrn b) → VFile.shaped s.n s.v →
    ∃ t u, step s = .next t ∧ step t = .next u ∧ u.v = s.v) ∧
  ∀ (s t : State) (b : Field) (rest : List Word) (states : Nat → Nat → Word),
    s.hasCommand (.ftrn b) [] rest → s.canRun (.ftrn b) →
    (∀ i k, i < s.n → k < s.n → elemAt s.v (b.toNat + i) k = states i (b.toNat + k)) →
    exec (.ftrn b) s = .next t →
    ∀ j k, j < s.n → k < s.n → elemAt t.v (b.toNat + j) k = states k (b.toNat + j)

/-- R106: XORing the same words twice restores the lanes, in two steps. -/
def Obligations.AbsorbTwiceRestores : Prop :=
  ∀ (s : State) (o l : Field) (ws rest : List Word), configLegal s.cfg = true → s.fault = false →
    s.hasCommand (.xorl o l) ws (encode (.xorl o l) :: (ws ++ rest)) → s.canRun (.xorl o l) → VFile.shaped s.n s.v →
    ∃ t u, step s = .next t ∧ step t = .next u ∧ u.v = s.v ∧ u.cmd = rest

/-- R44: XORL of the words a byte block forms little-endian, and LDXR of the same bytes, give the same V. -/
def Obligations.AbsorbOfWordsEqualsAbsorbOfBytes : Prop :=
  ∀ (s s' : State) (o l : Field) (ptrs ws rest rest' : List Word),
    s.hasCommand (.ldxr o l) ptrs rest → s.canRun (.ldxr o l) →
    s'.hasCommand (.xorl o l) ws rest' → s'.canRun (.xorl o l) → s'.cfg = s.cfg → s'.v = s.v →
    (∀ k i b, k < s.n → i < l.toNat → b < 8 →
      admitted s ((ptrs.getD k 0).toNat + (if s.cfg.lxBase = .image then 8 * (o.toNat + i) else 8 * i) + b) = true ∧
      isRaced s ((ptrs.getD k 0).toNat + (if s.cfg.lxBase = .image then 8 * (o.toNat + i) else 8 * i) + b) = false ∧
      s.mem.read ((ptrs.getD k 0).toNat + (if s.cfg.lxBase = .image then 8 * (o.toNat + i) else 8 * i) + b) =
        some ((ws.getD (l.toNat * k + i) 0).extractLsb' (8 * b) 8)) →
    ∃ t t', exec (.ldxr o l) s = .next t ∧ exec (.xorl o l) s' = .next t' ∧ t.v = t'.v

/-- R110: EXTL 0, 25 and STST emit the same words and neither changes V; and word Lk + i of EXTL O, L is the word STST would
emit at position 25k + O + i. -/
def Obligations.ExtractAgreesWithStore : Prop :=
  (∀ (s s' : State) (rest rest' : List Word), s.hasCommand (.extl 0 25) [] rest → s.canRun (.extl 0 25) →
    s'.hasCommand .stst [] rest' → s'.canRun .stst → s'.cfg = s.cfg → s'.v = s.v → s'.resp = s.resp →
    ∃ t t', exec (.extl 0 25) s = .next t ∧ exec .stst s' = .next t' ∧ t.resp = t'.resp ∧ t.v = s.v ∧ t'.v = s.v) ∧
  ∀ (s s' : State) (o l : Field) (rest rest' : List Word), s.hasCommand (.extl o l) [] rest → s.canRun (.extl o l) →
    s'.hasCommand .stst [] rest' → s'.canRun .stst → s'.cfg = s.cfg → s'.v = s.v →
    ∃ t t' ws ws', exec (.extl o l) s = .next t ∧ exec .stst s' = .next t' ∧ t.resp = s.resp ++ ws ∧
      t'.resp = s'.resp ++ ws' ∧ ws.length = s.n * l.toNat ∧
      ∀ k i, k < s.n → i < l.toNat → ws[l.toNat * k + i]? = ws'[25 * k + o.toNat + i]?

/-! ## Host memory -/

/-- R42: byte i, counted from the least significant, of the word that eight bytes form is byte number i of them. It is about the
assembly of eight given bytes; which addresses they come from is said by LdxrResult. -/
def Obligations.LittleEndianWord : Prop :=
  ∀ (f : Nat → Byte) (i : Nat), i < 8 → (le64 f).extractLsb' (8 * i) 8 = f i

/-- R41, R45, R130: an address is admitted exactly if it is below 2^64 and in a region declared before the header at the head of
the channel was appended (log 5). A region declared while c words are in the channel admits its addresses once those c words are
consumed, and the declaration changes nothing for a command whose header is one of those words. -/
def Obligations.AdmissionNeedsEarlierDeclaration : Prop :=
  (∀ (s : State) (a : Nat), admitted s a = true ↔ a < 2 ^ 64 ∧
    ∃ r ∈ s.readable, r.late = 0 ∧ r.base.toNat ≤ a ∧ a < r.base.toNat + r.size) ∧
  ∀ (s t : State) (base : Word) (size a : Nat), hostAct (.declareReadable base size) s = .next t →
    (a < 2 ^ 64 → base.toNat ≤ a → a < base.toNat + size → admitted (consume s.cmd.length t) a = true) ∧
    ∀ c, c < s.cmd.length → admitted (consume c t) a = admitted (consume c s) a

/-- R50, R51: a byte the Host writes is a race for exactly the commands whose words are in the channel at the write, and has the
written value for the commands after them (log 8). -/
def Obligations.WriteRacesWithPendingCommands : Prop :=
  ∀ (s t : State) (a : Word) (b : Byte), s.racesOk → hostAct (.writeByte a b) s = .next t →
    (∀ c, c < s.cmd.length → isRaced (consume c t) a.toNat = true) ∧
    isRaced (consume s.cmd.length t) a.toNat = false ∧
    (∀ d, hostByte (consume s.cmd.length t) a.toNat d = b) ∧
    (∀ c d, c < s.cmd.length → hostByte (consume c t) a.toNat d = Config.freeByte d) ∧
    ∀ a' c, a' ≠ a.toNat → isRaced (consume c t) a' = isRaced (consume c s) a' ∧ t.mem.read a' = s.mem.read a'

/-- R40, R46: no step of the engine changes a byte of host memory. -/
def Obligations.EngineNeverWritesMemory : Prop :=
  ∀ s t : State, step s = .next t → ∀ a, t.mem.read a = s.mem.read a

/-! ## Whole-machine rules -/

/-- R24, R25, R66: a step either leaves CMD_IDX, RPTR and the command channel alone, or completes the command i at the head:
CMD_IDX advances by 1 modulo 2^64, RPTR by 1 + P, and 1 + P words leave the channel. That RPTR too wraps modulo 2^64 is deduced
(log 10). -/
def Obligations.CountersAdvanceByCommands : Prop :=
  ∀ s t : State, step s = .next t →
    (t.cmdIdx = s.cmdIdx ∧ t.rptr = s.rptr ∧ t.cmd = s.cmd) ∨
      ∃ h rest i, s.cmd = h :: rest ∧ decode h = .command i ∧ t.cmdIdx = s.cmdIdx + 1 ∧
        t.rptr = s.rptr + BitVec.ofNat 64 (1 + payloadWords s.cfg.width i) ∧
        1 + payloadWords s.cfg.width i ≤ s.cmd.length ∧
        t.cmd = s.cmd.drop (1 + payloadWords s.cfg.width i)

/-- R23: no step clears LOADED, only an LDST sets it, and no Host move but reset changes it. -/
def Obligations.OnlyLdstSetsLoaded : Prop :=
  (∀ s t : State, step s = .next t → s.loaded = true → t.loaded = true) ∧
  (∀ s t : State, step s = .next t → s.loaded = false → t.loaded = true → ∃ rest, s.cmd = encode .ldst :: rest) ∧
  ∀ (m : HostMove) (s t : State), m ≠ .reset → hostAct m s = .next t → t.loaded = s.loaded

/-- R28, R115: once FAULT = 1, no moves of the Engine and the Host without a reset change the fault record, V, LOADED, CMD_IDX
or RPTR; no word leaves the command channel; and no response word is added. -/
def Obligations.FaultIsSticky : Prop :=
  ∀ (ms : List Move) (s t : State), s.fault = true → Move.host .reset ∉ ms → runMoves ms s = .next t →
    t.fault = true ∧ t.fcause = s.fcause ∧ t.fcmd = s.fcmd ∧ t.fidx = s.fidx ∧ t.v = s.v ∧ t.loaded = s.loaded ∧
      t.cmdIdx = s.cmdIdx ∧ t.rptr = s.rptr ∧ (∃ ws, t.cmd = s.cmd ++ ws) ∧ ∃ c, t.resp = s.resp.drop c

/-- R25: over any moves without a reset, the words consumed are the first words of what was in the channel and what the Host
appended, in order, and RPTR has advanced by their number: the next header is the word at stream position RPTR. That
RPTR wraps modulo 2^64 is deduced (log 10). -/
def Obligations.ReadPointerIsStreamPosition : Prop :=
  ∀ (ms : List Move) (s t : State), Move.host .reset ∉ ms → runMoves ms s = .next t →
    ∃ consumed : List Word,
      s.cmd ++ ms.filterMap (fun m => match m with | .host (.appendWord w) => some w | _ => none) = consumed ++ t.cmd ∧
      t.rptr = s.rptr + BitVec.ofNat 64 consumed.length

/-- R23: while LOADED = 0 no step reads V: with any other V the step is the same, but for V itself, and once it has loaded a
state V is the same too. -/
def Obligations.VUnreadUntilLoaded : Prop :=
  ∀ (s t : State) (v : VFile), s.loaded = false → step s = .next t →
    ∃ t', step { s with v := v } = .next t' ∧ { t' with v := t.v } = t ∧ (t.loaded = true → t'.v = t.v)

/-- R36, R86, R8: no step depends on VARIANT, ISA_TARGET or the hardware's register width: with another legal choice of them the
step is the same. -/
def Obligations.VariantIsUnobservable : Prop :=
  ∀ (s : State) (c : Config), configLegal s.cfg = true → configLegal c = true → c.width = s.cfg.width →
    c.respDepth = s.cfg.respDepth → c.lxBase = s.cfg.lxBase → c.cmpsExact = s.cfg.cmpsExact →
    (∀ t, step s = .next t → step { s with cfg := c } = .next { t with cfg := c }) ∧
      ∀ f, step s = .fault f → step { s with cfg := c } = .fault f

/-- R85, R100: no command but FTRN moves data between instances: instance k's lanes after a command depend on no other
instance's lanes before it. -/
def Obligations.InstancesDoNotMix : Prop :=
  ∀ (i : Instr) (s t t' : State) (v : VFile) (k : Nat), (∀ b, i ≠ .ftrn b) → k < s.n →
    (∀ l, l < 25 → elemAt v l k = s.lane k l) → exec i s = .next t → exec i { s with v := v } = .next t' →
    ∀ l, l < 25 → t'.lane k l = t.lane k l

/-- R138, R116: a command that passes the checks, has its payload and its room, and, for LDXR, its bytes admitted, completes in
one step, with its E response words appended. RPTR's wrap is
deduced (log 10). -/
def Obligations.UnheldCommandCompletes : Prop :=
  ∀ (s : State) (i : Instr) (payload rest : List Word), configLegal s.cfg = true → s.fault = false →
    s.hasCommand i payload rest → s.canRun i →
    (∀ o l, i = .ldxr o l → ldxrAdmitted s payload o.toNat l.toNat = true) →
    ∃ t ws, step s = .next t ∧ s.retired (payloadWords s.cfg.width i) t ∧ t.cmd = rest ∧ t.resp = s.resp ++ ws ∧
      ws.length = responseWords s.cfg.width i

/-- R45, R116: the only step that does not answer a next state, in a legal configuration, is that of an LDXR, which answers a fault
(log 4). R116 gives a hold no step either: that a hold answers a next state, the state itself, is the model's choice (log 3). -/
def Obligations.OnlyLdxrIsStuck : Prop :=
  (∀ (s : State) (f : Fault), step s = .fault f → ∃ h rest o l, s.cmd = h :: rest ∧ decode h = .command (.ldxr o l) ∧
    s.fault = false ∧ s.loaded = true) ∧
  ∀ s : State, configLegal s.cfg = true → ∀ r, step s ≠ .refused r

/-! ## Reset, the Host and the CSR block -/

/-- R38, R128: what reset leaves, for every legal configuration. V's own value is the model's (log 2) and is not spoken of. -/
def Obligations.ResetValues : Prop :=
  ∀ c : Config, configLegal c = true → ∃ s, initialState c = some s ∧ s.cfg = c ∧ s.loaded = false ∧ s.fault = false ∧
    s.fcause = 0 ∧ s.fcmd = 0 ∧ s.fidx = 0 ∧ s.cmdIdx = 0 ∧ s.rptr = 0 ∧ s.cmd = [] ∧ s.resp = [] ∧
    csrValue s 0x08 = 0x4 ∧ csrValue s 0x00 = idCfgWord c

/-- R128: a reset by the Host, from any state, faulted or not, restores the reset values and keeps the configuration. Two
clauses are the model's: V, which has no value by R38, is what V is in the model's reset state (log 2), and host memory is the
Host's and stays (log 14). -/
def Obligations.HostResetRestores : Prop :=
  ∀ s : State, configLegal s.cfg = true → ∃ t, hostAct .reset s = .next t ∧ t.cfg = s.cfg ∧ t.v = (State.resetOf s.cfg).v ∧
    t.loaded = false ∧ t.fault = false ∧ t.fcause = 0 ∧ t.fcmd = 0 ∧ t.fidx = 0 ∧ t.cmdIdx = 0 ∧ t.rptr = 0 ∧ t.cmd = [] ∧
    t.resp = [] ∧ ∀ a, t.mem.read a = s.mem.read a

/-- R29, R30, R136: the Host appends at the tail of the command channel and is never refused, and takes the head of the response
channel, or waits with no change on an empty one; each leaves all else alone. -/
def Obligations.ChannelsAreFifos : Prop :=
  ∀ s : State, configLegal s.cfg = true →
    (∀ w, hostAct (.appendWord w) s = .next { s with cmd := s.cmd ++ [w] }) ∧
    (∀ w rest, s.resp = w :: rest →
      hostAct .readResponse s = .next { s with resp := rest } ∧ hostSees .readResponse s = some w) ∧
    (s.resp = [] → hostAct .readResponse s = .next s ∧ hostSees .readResponse s = none)

/-- R31, R32, R33: the CSR map, field by field; reserved offsets and bits read as 0. RESP_COUNT is read modulo 2^64 (log 11). -/
def Obligations.CsrMap : Prop :=
  ∀ s : State,
    2 ^ ((csrValue s 0x00).extractLsb' 0 4).toNat = s.n ∧
    ((csrValue s 0x00).extractLsb' 4 4).toNat =
      (match s.cfg.variant with | .scalar => 0 | .v128 => 1 | .v256 => 2 | .v512 => 3 | .batched => 4) ∧
    (csrValue s 0x00).extractLsb' 8 5 = 24 ∧ (csrValue s 0x00).extractLsb' 13 5 = 25 ∧
    (csrValue s 0x00).extractLsb' 18 46 = 0 ∧
    (csrValue s 0x08).getLsbD 0 = s.fault ∧ (csrValue s 0x08).getLsbD 1 = s.loaded ∧
    ((csrValue s 0x08).getLsbD 2 = true ↔ s.cmd = []) ∧ (csrValue s 0x08).getLsbD 3 = false ∧
    (csrValue s 0x08).extractLsb' 4 4 = s.fcause ∧ (csrValue s 0x08).extractLsb' 8 56 = 0 ∧
    csrValue s 0x10 = s.fcmd ∧ csrValue s 0x18 = s.fidx ∧ csrValue s 0x20 = s.cmdIdx ∧
    csrValue s 0x28 = BitVec.ofNat 64 s.resp.length ∧
    ∀ offset : BitVec 8, 0x30 ≤ offset.toNat → csrValue s offset = 0

/-- R34, R136: a CSR read at a multiple of 8 gives the CSR's value and changes nothing. -/
def Obligations.CsrReadHasNoSideEffect : Prop :=
  ∀ (s : State) (offset : BitVec 8), configLegal s.cfg = true → offset.toNat % 8 = 0 →
    hostAct (.readCsr offset) s = .next s ∧ hostSees (.readCsr offset) s = some (csrValue s offset)

/-! ## The invariant -/

/-- The reset state of every legal configuration meets the invariant, and so does the model's reset state. -/
def Obligations.ResetMeetsInvariant : Prop :=
  (∀ c : Config, configLegal c = true → (State.resetOf c).Inv) ∧ State.reset.Inv

/-- R19, R28, R30, R40, R112: every step of the engine keeps the invariant: the configuration legal, V of 25 registers of N
elements, the fault record clear or a defined cause, the response channel within its capacity, host memory and the race marks in
canonical form, no declaration or mark later than the channel holds words. -/
def Obligations.StepKeepsInvariant : Prop :=
  ∀ s t : State, s.Inv → step s = .next t → t.Inv

/-- Every move of the Host keeps the invariant, so that every run of both does. -/
def Obligations.RunKeepsInvariant : Prop :=
  (∀ (m : HostMove) (s t : State), s.Inv → hostAct m s = .next t → t.Inv) ∧
    ∀ (ms : List Move) (s t : State), s.Inv → runMoves ms s = .next t → t.Inv
end

