-- ==== Sys2Proof/Laws/Encoding.lean ====
section
/-! SUPPORT. The fields of an encoded header word (spec 30_encoding R56). -/

namespace Sys2Proof

theorem getLsbD_headerWord (op : Opcode) (r o l : Field) {i : Nat} (hi : i < 64) :
    (headerWord op r o l).getLsbD i =
      ((decide (24 ≤ i) && l.getLsbD (i - 24)) || (decide (16 ≤ i) && o.getLsbD (i - 16)) ||
        (decide (8 ≤ i) && r.getLsbD (i - 8)) || op.code.getLsbD i) := by
  simp only [headerWord, BitVec.getLsbD_or, BitVec.getLsbD_shiftLeft, BitVec.getLsbD_setWidth, hi, decide_true,
    Bool.true_and, show i - 24 < 64 by omega, show i - 16 < 64 by omega, show i - 8 < 64 by omega]
  by_cases h1 : i < 24 <;> by_cases h2 : i < 16 <;> by_cases h3 : i < 8 <;>
    simp [h1, h2, h3, Nat.not_lt.1, Nat.not_le.2]

/-- A field of w bits from bit lo of a header word, given bit by bit. -/
theorem field_headerWord {op : Opcode} {r o l : Field} {lo w : Nat} {f : BitVec w} (h : lo + w ≤ 64)
    (hf : ∀ i, i < w →
      ((decide (24 ≤ lo + i) && l.getLsbD (lo + i - 24)) || (decide (16 ≤ lo + i) && o.getLsbD (lo + i - 16)) ||
        (decide (8 ≤ lo + i) && r.getLsbD (lo + i - 8)) || op.code.getLsbD (lo + i)) = f.getLsbD i) :
    (headerWord op r o l).extractLsb' lo w = f := by
  refine BitVec.eq_of_getLsbD_eq fun i hi => ?_
  rw [BitVec.getLsbD_extractLsb', getLsbD_headerWord _ _ _ _ (by omega), ← hf i hi]
  simp [hi]

variable (op : Opcode) (r o l : Field)

theorem opField_headerWord : opField (headerWord op r o l) = op.code := by
  refine field_headerWord (by decide) fun i hi => ?_
  simp [show ¬ 24 ≤ i by omega, show ¬ 16 ≤ i by omega, show ¬ 8 ≤ i by omega]

theorem roundsField_headerWord : roundsField (headerWord op r o l) = r := by
  refine field_headerWord (by decide) fun i hi => ?_
  simp [show ¬ 24 ≤ 8 + i by omega, show ¬ 16 ≤ 8 + i by omega]

theorem rsvA_headerWord : rsvA (headerWord op r o l) = 0 := by
  refine field_headerWord (by decide) fun i hi => ?_
  simp [show ¬ 24 ≤ 13 + i by omega, show ¬ 16 ≤ 13 + i by omega, BitVec.getLsbD_of_ge op.code (13 + i) (by omega),
    BitVec.getLsbD_of_ge r (13 + i - 8) (by omega)]

theorem offsetField_headerWord : offsetField (headerWord op r o l) = o := by
  refine field_headerWord (by decide) fun i hi => ?_
  simp [show ¬ 24 ≤ 16 + i by omega, BitVec.getLsbD_of_ge op.code (16 + i) (by omega),
    BitVec.getLsbD_of_ge r (16 + i - 8) (by omega)]

theorem rsvB_headerWord : rsvB (headerWord op r o l) = 0 := by
  refine field_headerWord (by decide) fun i hi => ?_
  simp [show ¬ 24 ≤ 21 + i by omega, BitVec.getLsbD_of_ge op.code (21 + i) (by omega),
    BitVec.getLsbD_of_ge r (21 + i - 8) (by omega), BitVec.getLsbD_of_ge o (21 + i - 16) (by omega)]

theorem lanesField_headerWord : lanesField (headerWord op r o l) = l := by
  refine field_headerWord (by decide) fun i hi => ?_
  simp [BitVec.getLsbD_of_ge op.code (24 + i) (by omega), BitVec.getLsbD_of_ge r (24 + i - 8) (by omega),
    BitVec.getLsbD_of_ge o (24 + i - 16) (by omega)]

theorem rsvC_headerWord : rsvC (headerWord op r o l) = 0 := by
  refine field_headerWord (by decide) fun i hi => ?_
  simp [BitVec.getLsbD_of_ge op.code (29 + i) (by omega), BitVec.getLsbD_of_ge r (29 + i - 8) (by omega),
    BitVec.getLsbD_of_ge o (29 + i - 16) (by omega), BitVec.getLsbD_of_ge l (29 + i - 24) (by omega)]

theorem opcodeOf_code : opcodeOf op.code = some op := by cases op <;> rfl

end Sys2Proof
end

