-- ==== Sys2Proof/Laws/State.lean ====
section
/-! SUPPORT. What each update of State does to each field: one lemma per field per update, so that no later proof unfolds a
record update. -/

namespace Sys2Proof.Machine

variable (s : State)

/-! ## setLanes -/

@[simp] theorem setLanes_cfg (f : Nat → Nat → Word) : (s.setLanes f).cfg = s.cfg := rfl
@[simp] theorem setLanes_v (f : Nat → Nat → Word) : (s.setLanes f).v = vfileOf s.n f := rfl
@[simp] theorem setLanes_loaded (f : Nat → Nat → Word) : (s.setLanes f).loaded = s.loaded := rfl
@[simp] theorem setLanes_fault (f : Nat → Nat → Word) : (s.setLanes f).fault = s.fault := rfl
@[simp] theorem setLanes_fcause (f : Nat → Nat → Word) : (s.setLanes f).fcause = s.fcause := rfl
@[simp] theorem setLanes_fcmd (f : Nat → Nat → Word) : (s.setLanes f).fcmd = s.fcmd := rfl
@[simp] theorem setLanes_fidx (f : Nat → Nat → Word) : (s.setLanes f).fidx = s.fidx := rfl
@[simp] theorem setLanes_cmdIdx (f : Nat → Nat → Word) : (s.setLanes f).cmdIdx = s.cmdIdx := rfl
@[simp] theorem setLanes_rptr (f : Nat → Nat → Word) : (s.setLanes f).rptr = s.rptr := rfl
@[simp] theorem setLanes_cmd (f : Nat → Nat → Word) : (s.setLanes f).cmd = s.cmd := rfl
@[simp] theorem setLanes_resp (f : Nat → Nat → Word) : (s.setLanes f).resp = s.resp := rfl
@[simp] theorem setLanes_mem (f : Nat → Nat → Word) : (s.setLanes f).mem = s.mem := rfl
@[simp] theorem setLanes_readable (f : Nat → Nat → Word) : (s.setLanes f).readable = s.readable := rfl
@[simp] theorem setLanes_raced (f : Nat → Nat → Word) : (s.setLanes f).raced = s.raced := rfl
@[simp] theorem setLanes_draws (f : Nat → Nat → Word) : (s.setLanes f).draws = s.draws := rfl
@[simp] theorem setLanes_n (f : Nat → Nat → Word) : (s.setLanes f).n = s.n := rfl

/-! ## setLoaded -/

@[simp] theorem setLoaded_cfg : (setLoaded s).cfg = s.cfg := rfl
@[simp] theorem setLoaded_v : (setLoaded s).v = s.v := rfl
@[simp] theorem setLoaded_loaded : (setLoaded s).loaded = true := rfl
@[simp] theorem setLoaded_fault : (setLoaded s).fault = s.fault := rfl
@[simp] theorem setLoaded_fcause : (setLoaded s).fcause = s.fcause := rfl
@[simp] theorem setLoaded_fcmd : (setLoaded s).fcmd = s.fcmd := rfl
@[simp] theorem setLoaded_fidx : (setLoaded s).fidx = s.fidx := rfl
@[simp] theorem setLoaded_cmdIdx : (setLoaded s).cmdIdx = s.cmdIdx := rfl
@[simp] theorem setLoaded_rptr : (setLoaded s).rptr = s.rptr := rfl
@[simp] theorem setLoaded_cmd : (setLoaded s).cmd = s.cmd := rfl
@[simp] theorem setLoaded_resp : (setLoaded s).resp = s.resp := rfl
@[simp] theorem setLoaded_mem : (setLoaded s).mem = s.mem := rfl
@[simp] theorem setLoaded_readable : (setLoaded s).readable = s.readable := rfl
@[simp] theorem setLoaded_raced : (setLoaded s).raced = s.raced := rfl
@[simp] theorem setLoaded_draws : (setLoaded s).draws = s.draws := rfl
@[simp] theorem setLoaded_n : (setLoaded s).n = s.n := rfl
@[simp] theorem setLoaded_lane (k l : Nat) : (setLoaded s).lane k l = s.lane k l := rfl

/-! ## consume -/

@[simp] theorem consume_cfg (c : Nat) : (consume c s).cfg = s.cfg := rfl
@[simp] theorem consume_v (c : Nat) : (consume c s).v = s.v := rfl
@[simp] theorem consume_loaded (c : Nat) : (consume c s).loaded = s.loaded := rfl
@[simp] theorem consume_fault (c : Nat) : (consume c s).fault = s.fault := rfl
@[simp] theorem consume_fcause (c : Nat) : (consume c s).fcause = s.fcause := rfl
@[simp] theorem consume_fcmd (c : Nat) : (consume c s).fcmd = s.fcmd := rfl
@[simp] theorem consume_fidx (c : Nat) : (consume c s).fidx = s.fidx := rfl
@[simp] theorem consume_cmdIdx (c : Nat) : (consume c s).cmdIdx = s.cmdIdx := rfl
@[simp] theorem consume_rptr (c : Nat) : (consume c s).rptr = s.rptr + BitVec.ofNat 64 c := rfl
@[simp] theorem consume_cmd (c : Nat) : (consume c s).cmd = s.cmd.drop c := rfl
@[simp] theorem consume_resp (c : Nat) : (consume c s).resp = s.resp := rfl
@[simp] theorem consume_mem (c : Nat) : (consume c s).mem = s.mem := rfl
@[simp] theorem consume_readable (c : Nat) : (consume c s).readable = s.readable.map (ageRegion c) := rfl
@[simp] theorem consume_raced (c : Nat) : (consume c s).raced = ageRaces c s.raced := rfl
@[simp] theorem consume_draws (c : Nat) : (consume c s).draws = s.draws := rfl
@[simp] theorem consume_n (c : Nat) : (consume c s).n = s.n := rfl
@[simp] theorem consume_lane (c : Nat) (k l : Nat) : (consume c s).lane k l = s.lane k l := rfl

/-! ## emit -/

@[simp] theorem emit_cfg (ws : List Word) : (emit ws s).cfg = s.cfg := rfl
@[simp] theorem emit_v (ws : List Word) : (emit ws s).v = s.v := rfl
@[simp] theorem emit_loaded (ws : List Word) : (emit ws s).loaded = s.loaded := rfl
@[simp] theorem emit_fault (ws : List Word) : (emit ws s).fault = s.fault := rfl
@[simp] theorem emit_fcause (ws : List Word) : (emit ws s).fcause = s.fcause := rfl
@[simp] theorem emit_fcmd (ws : List Word) : (emit ws s).fcmd = s.fcmd := rfl
@[simp] theorem emit_fidx (ws : List Word) : (emit ws s).fidx = s.fidx := rfl
@[simp] theorem emit_cmdIdx (ws : List Word) : (emit ws s).cmdIdx = s.cmdIdx := rfl
@[simp] theorem emit_rptr (ws : List Word) : (emit ws s).rptr = s.rptr := rfl
@[simp] theorem emit_cmd (ws : List Word) : (emit ws s).cmd = s.cmd := rfl
@[simp] theorem emit_resp (ws : List Word) : (emit ws s).resp = s.resp ++ ws := rfl
@[simp] theorem emit_mem (ws : List Word) : (emit ws s).mem = s.mem := rfl
@[simp] theorem emit_readable (ws : List Word) : (emit ws s).readable = s.readable := rfl
@[simp] theorem emit_raced (ws : List Word) : (emit ws s).raced = s.raced := rfl
@[simp] theorem emit_draws (ws : List Word) : (emit ws s).draws = s.draws := rfl
@[simp] theorem emit_n (ws : List Word) : (emit ws s).n = s.n := rfl
@[simp] theorem emit_lane (ws : List Word) (k l : Nat) : (emit ws s).lane k l = s.lane k l := rfl

/-! ## takeFault -/

@[simp] theorem takeFault_cfg (c : Cause) (h : Word) : (takeFault c h s).cfg = s.cfg := rfl
@[simp] theorem takeFault_v (c : Cause) (h : Word) : (takeFault c h s).v = s.v := rfl
@[simp] theorem takeFault_loaded (c : Cause) (h : Word) : (takeFault c h s).loaded = s.loaded := rfl
@[simp] theorem takeFault_fault (c : Cause) (h : Word) : (takeFault c h s).fault = true := rfl
@[simp] theorem takeFault_fcause (c : Cause) (h : Word) : (takeFault c h s).fcause = causeCode c := rfl
@[simp] theorem takeFault_fcmd (c : Cause) (h : Word) : (takeFault c h s).fcmd = h := rfl
@[simp] theorem takeFault_fidx (c : Cause) (h : Word) : (takeFault c h s).fidx = s.cmdIdx := rfl
@[simp] theorem takeFault_cmdIdx (c : Cause) (h : Word) : (takeFault c h s).cmdIdx = s.cmdIdx := rfl
@[simp] theorem takeFault_rptr (c : Cause) (h : Word) : (takeFault c h s).rptr = s.rptr := rfl
@[simp] theorem takeFault_cmd (c : Cause) (h : Word) : (takeFault c h s).cmd = s.cmd := rfl
@[simp] theorem takeFault_resp (c : Cause) (h : Word) : (takeFault c h s).resp = s.resp := rfl
@[simp] theorem takeFault_mem (c : Cause) (h : Word) : (takeFault c h s).mem = s.mem := rfl
@[simp] theorem takeFault_readable (c : Cause) (h : Word) : (takeFault c h s).readable = s.readable := rfl
@[simp] theorem takeFault_raced (c : Cause) (h : Word) : (takeFault c h s).raced = s.raced := rfl
@[simp] theorem takeFault_draws (c : Cause) (h : Word) : (takeFault c h s).draws = s.draws := rfl
@[simp] theorem takeFault_n (c : Cause) (h : Word) : (takeFault c h s).n = s.n := rfl
@[simp] theorem takeFault_lane (c : Cause) (h : Word) (k l : Nat) : (takeFault c h s).lane k l = s.lane k l := rfl

/-! ## complete -/

@[simp] theorem complete_cfg (p : Nat) : (complete p s).cfg = s.cfg := rfl
@[simp] theorem complete_v (p : Nat) : (complete p s).v = s.v := rfl
@[simp] theorem complete_loaded (p : Nat) : (complete p s).loaded = s.loaded := rfl
@[simp] theorem complete_fault (p : Nat) : (complete p s).fault = s.fault := rfl
@[simp] theorem complete_fcause (p : Nat) : (complete p s).fcause = s.fcause := rfl
@[simp] theorem complete_fcmd (p : Nat) : (complete p s).fcmd = s.fcmd := rfl
@[simp] theorem complete_fidx (p : Nat) : (complete p s).fidx = s.fidx := rfl
@[simp] theorem complete_cmdIdx (p : Nat) : (complete p s).cmdIdx = s.cmdIdx + 1 := rfl
@[simp] theorem complete_rptr (p : Nat) : (complete p s).rptr = s.rptr + BitVec.ofNat 64 (1 + p) := rfl
@[simp] theorem complete_cmd (p : Nat) : (complete p s).cmd = s.cmd.drop (1 + p) := rfl
@[simp] theorem complete_resp (p : Nat) : (complete p s).resp = s.resp := rfl
@[simp] theorem complete_mem (p : Nat) : (complete p s).mem = s.mem := rfl
@[simp] theorem complete_readable (p : Nat) : (complete p s).readable = s.readable.map (ageRegion (1 + p)) := rfl
@[simp] theorem complete_raced (p : Nat) : (complete p s).raced = ageRaces (1 + p) s.raced := rfl
@[simp] theorem complete_draws (p : Nat) : (complete p s).draws = s.draws := rfl
@[simp] theorem complete_n (p : Nat) : (complete p s).n = s.n := rfl
@[simp] theorem complete_lane (p : Nat) (k l : Nat) : (complete p s).lane k l = s.lane k l := rfl

/-! ## advanceDraws -/

@[simp] theorem advanceDraws_cfg (c : Nat) : (advanceDraws c s).cfg = s.cfg := rfl
@[simp] theorem advanceDraws_v (c : Nat) : (advanceDraws c s).v = s.v := rfl
@[simp] theorem advanceDraws_loaded (c : Nat) : (advanceDraws c s).loaded = s.loaded := rfl
@[simp] theorem advanceDraws_fault (c : Nat) : (advanceDraws c s).fault = s.fault := rfl
@[simp] theorem advanceDraws_fcause (c : Nat) : (advanceDraws c s).fcause = s.fcause := rfl
@[simp] theorem advanceDraws_fcmd (c : Nat) : (advanceDraws c s).fcmd = s.fcmd := rfl
@[simp] theorem advanceDraws_fidx (c : Nat) : (advanceDraws c s).fidx = s.fidx := rfl
@[simp] theorem advanceDraws_cmdIdx (c : Nat) : (advanceDraws c s).cmdIdx = s.cmdIdx := rfl
@[simp] theorem advanceDraws_rptr (c : Nat) : (advanceDraws c s).rptr = s.rptr := rfl
@[simp] theorem advanceDraws_cmd (c : Nat) : (advanceDraws c s).cmd = s.cmd := rfl
@[simp] theorem advanceDraws_resp (c : Nat) : (advanceDraws c s).resp = s.resp := rfl
@[simp] theorem advanceDraws_mem (c : Nat) : (advanceDraws c s).mem = s.mem := rfl
@[simp] theorem advanceDraws_readable (c : Nat) : (advanceDraws c s).readable = s.readable := rfl
@[simp] theorem advanceDraws_raced (c : Nat) : (advanceDraws c s).raced = s.raced := rfl
@[simp] theorem advanceDraws_draws (c : Nat) : (advanceDraws c s).draws = s.draws + c := rfl
@[simp] theorem advanceDraws_n (c : Nat) : (advanceDraws c s).n = s.n := rfl
@[simp] theorem advanceDraws_lane (c : Nat) (k l : Nat) : (advanceDraws c s).lane k l = s.lane k l := rfl

/-! ## placeAtHead -/

@[simp] theorem placeAtHead_cfg (ws : List Word) : (placeAtHead ws s).cfg = s.cfg := rfl
@[simp] theorem placeAtHead_v (ws : List Word) : (placeAtHead ws s).v = s.v := rfl
@[simp] theorem placeAtHead_loaded (ws : List Word) : (placeAtHead ws s).loaded = s.loaded := rfl
@[simp] theorem placeAtHead_fault (ws : List Word) : (placeAtHead ws s).fault = s.fault := rfl
@[simp] theorem placeAtHead_fcause (ws : List Word) : (placeAtHead ws s).fcause = s.fcause := rfl
@[simp] theorem placeAtHead_fcmd (ws : List Word) : (placeAtHead ws s).fcmd = s.fcmd := rfl
@[simp] theorem placeAtHead_fidx (ws : List Word) : (placeAtHead ws s).fidx = s.fidx := rfl
@[simp] theorem placeAtHead_cmdIdx (ws : List Word) : (placeAtHead ws s).cmdIdx = s.cmdIdx := rfl
@[simp] theorem placeAtHead_rptr (ws : List Word) : (placeAtHead ws s).rptr = s.rptr := rfl
@[simp] theorem placeAtHead_cmd (ws : List Word) : (placeAtHead ws s).cmd = ws ++ s.cmd.drop ws.length := rfl
@[simp] theorem placeAtHead_resp (ws : List Word) : (placeAtHead ws s).resp = s.resp := rfl
@[simp] theorem placeAtHead_mem (ws : List Word) : (placeAtHead ws s).mem = s.mem := rfl
@[simp] theorem placeAtHead_readable (ws : List Word) : (placeAtHead ws s).readable = s.readable := rfl
@[simp] theorem placeAtHead_raced (ws : List Word) : (placeAtHead ws s).raced = s.raced := rfl
@[simp] theorem placeAtHead_draws (ws : List Word) : (placeAtHead ws s).draws = s.draws := rfl
@[simp] theorem placeAtHead_n (ws : List Word) : (placeAtHead ws s).n = s.n := rfl
@[simp] theorem placeAtHead_lane (ws : List Word) (k l : Nat) : (placeAtHead ws s).lane k l = s.lane k l := rfl

/-! ## resetEngine -/

@[simp] theorem resetEngine_cfg : (resetEngine s).cfg = s.cfg := rfl
@[simp] theorem resetEngine_v : (resetEngine s).v = List.replicate 25 (List.replicate s.n 0) := rfl
@[simp] theorem resetEngine_loaded : (resetEngine s).loaded = false := rfl
@[simp] theorem resetEngine_fault : (resetEngine s).fault = false := rfl
@[simp] theorem resetEngine_fcause : (resetEngine s).fcause = 0 := rfl
@[simp] theorem resetEngine_fcmd : (resetEngine s).fcmd = 0 := rfl
@[simp] theorem resetEngine_fidx : (resetEngine s).fidx = 0 := rfl
@[simp] theorem resetEngine_cmdIdx : (resetEngine s).cmdIdx = 0 := rfl
@[simp] theorem resetEngine_rptr : (resetEngine s).rptr = 0 := rfl
@[simp] theorem resetEngine_cmd : (resetEngine s).cmd = [] := rfl
@[simp] theorem resetEngine_resp : (resetEngine s).resp = [] := rfl
@[simp] theorem resetEngine_mem : (resetEngine s).mem = s.mem := rfl
@[simp] theorem resetEngine_readable : (resetEngine s).readable = s.readable.map fun r => { r with late := 0 } := rfl
@[simp] theorem resetEngine_raced : (resetEngine s).raced = [] := rfl
@[simp] theorem resetEngine_draws : (resetEngine s).draws = s.draws := rfl
@[simp] theorem resetEngine_n : (resetEngine s).n = s.n := rfl

/-! ## hostAppend -/

@[simp] theorem hostAppend_cfg (w : Word) : (hostAppend w s).cfg = s.cfg := rfl
@[simp] theorem hostAppend_v (w : Word) : (hostAppend w s).v = s.v := rfl
@[simp] theorem hostAppend_loaded (w : Word) : (hostAppend w s).loaded = s.loaded := rfl
@[simp] theorem hostAppend_fault (w : Word) : (hostAppend w s).fault = s.fault := rfl
@[simp] theorem hostAppend_fcause (w : Word) : (hostAppend w s).fcause = s.fcause := rfl
@[simp] theorem hostAppend_fcmd (w : Word) : (hostAppend w s).fcmd = s.fcmd := rfl
@[simp] theorem hostAppend_fidx (w : Word) : (hostAppend w s).fidx = s.fidx := rfl
@[simp] theorem hostAppend_cmdIdx (w : Word) : (hostAppend w s).cmdIdx = s.cmdIdx := rfl
@[simp] theorem hostAppend_rptr (w : Word) : (hostAppend w s).rptr = s.rptr := rfl
@[simp] theorem hostAppend_cmd (w : Word) : (hostAppend w s).cmd = s.cmd ++ [w] := rfl
@[simp] theorem hostAppend_resp (w : Word) : (hostAppend w s).resp = s.resp := rfl
@[simp] theorem hostAppend_mem (w : Word) : (hostAppend w s).mem = s.mem := rfl
@[simp] theorem hostAppend_readable (w : Word) : (hostAppend w s).readable = s.readable := rfl
@[simp] theorem hostAppend_raced (w : Word) : (hostAppend w s).raced = s.raced := rfl
@[simp] theorem hostAppend_draws (w : Word) : (hostAppend w s).draws = s.draws := rfl
@[simp] theorem hostAppend_n (w : Word) : (hostAppend w s).n = s.n := rfl
@[simp] theorem hostAppend_lane (w : Word) (k l : Nat) : (hostAppend w s).lane k l = s.lane k l := rfl

/-! ## hostReadResponse -/

@[simp] theorem hostReadResponse_cfg : (hostReadResponse s).cfg = s.cfg := rfl
@[simp] theorem hostReadResponse_v : (hostReadResponse s).v = s.v := rfl
@[simp] theorem hostReadResponse_loaded : (hostReadResponse s).loaded = s.loaded := rfl
@[simp] theorem hostReadResponse_fault : (hostReadResponse s).fault = s.fault := rfl
@[simp] theorem hostReadResponse_fcause : (hostReadResponse s).fcause = s.fcause := rfl
@[simp] theorem hostReadResponse_fcmd : (hostReadResponse s).fcmd = s.fcmd := rfl
@[simp] theorem hostReadResponse_fidx : (hostReadResponse s).fidx = s.fidx := rfl
@[simp] theorem hostReadResponse_cmdIdx : (hostReadResponse s).cmdIdx = s.cmdIdx := rfl
@[simp] theorem hostReadResponse_rptr : (hostReadResponse s).rptr = s.rptr := rfl
@[simp] theorem hostReadResponse_cmd : (hostReadResponse s).cmd = s.cmd := rfl
@[simp] theorem hostReadResponse_resp : (hostReadResponse s).resp = s.resp.drop 1 := rfl
@[simp] theorem hostReadResponse_mem : (hostReadResponse s).mem = s.mem := rfl
@[simp] theorem hostReadResponse_readable : (hostReadResponse s).readable = s.readable := rfl
@[simp] theorem hostReadResponse_raced : (hostReadResponse s).raced = s.raced := rfl
@[simp] theorem hostReadResponse_draws : (hostReadResponse s).draws = s.draws := rfl
@[simp] theorem hostReadResponse_n : (hostReadResponse s).n = s.n := rfl
@[simp] theorem hostReadResponse_lane (k l : Nat) : (hostReadResponse s).lane k l = s.lane k l := rfl

/-! ## hostWriteByte -/

@[simp] theorem hostWriteByte_cfg (a : Word) (b : Byte) : (hostWriteByte a b s).cfg = s.cfg := rfl
@[simp] theorem hostWriteByte_v (a : Word) (b : Byte) : (hostWriteByte a b s).v = s.v := rfl
@[simp] theorem hostWriteByte_loaded (a : Word) (b : Byte) : (hostWriteByte a b s).loaded = s.loaded := rfl
@[simp] theorem hostWriteByte_fault (a : Word) (b : Byte) : (hostWriteByte a b s).fault = s.fault := rfl
@[simp] theorem hostWriteByte_fcause (a : Word) (b : Byte) : (hostWriteByte a b s).fcause = s.fcause := rfl
@[simp] theorem hostWriteByte_fcmd (a : Word) (b : Byte) : (hostWriteByte a b s).fcmd = s.fcmd := rfl
@[simp] theorem hostWriteByte_fidx (a : Word) (b : Byte) : (hostWriteByte a b s).fidx = s.fidx := rfl
@[simp] theorem hostWriteByte_cmdIdx (a : Word) (b : Byte) : (hostWriteByte a b s).cmdIdx = s.cmdIdx := rfl
@[simp] theorem hostWriteByte_rptr (a : Word) (b : Byte) : (hostWriteByte a b s).rptr = s.rptr := rfl
@[simp] theorem hostWriteByte_cmd (a : Word) (b : Byte) : (hostWriteByte a b s).cmd = s.cmd := rfl
@[simp] theorem hostWriteByte_resp (a : Word) (b : Byte) : (hostWriteByte a b s).resp = s.resp := rfl
@[simp] theorem hostWriteByte_mem (a : Word) (b : Byte) : (hostWriteByte a b s).mem = s.mem.write a b := rfl
@[simp] theorem hostWriteByte_readable (a : Word) (b : Byte) : (hostWriteByte a b s).readable = s.readable := rfl
@[simp] theorem hostWriteByte_raced (a : Word) (b : Byte) : (hostWriteByte a b s).raced = markRace a s := rfl
@[simp] theorem hostWriteByte_draws (a : Word) (b : Byte) : (hostWriteByte a b s).draws = s.draws := rfl
@[simp] theorem hostWriteByte_n (a : Word) (b : Byte) : (hostWriteByte a b s).n = s.n := rfl
@[simp] theorem hostWriteByte_lane (a : Word) (b : Byte) (k l : Nat) : (hostWriteByte a b s).lane k l = s.lane k l := rfl

/-! ## hostDeclare -/

@[simp] theorem hostDeclare_cfg (base : Word) (size : Nat) : (hostDeclare base size s).cfg = s.cfg := rfl
@[simp] theorem hostDeclare_v (base : Word) (size : Nat) : (hostDeclare base size s).v = s.v := rfl
@[simp] theorem hostDeclare_loaded (base : Word) (size : Nat) : (hostDeclare base size s).loaded = s.loaded := rfl
@[simp] theorem hostDeclare_fault (base : Word) (size : Nat) : (hostDeclare base size s).fault = s.fault := rfl
@[simp] theorem hostDeclare_fcause (base : Word) (size : Nat) : (hostDeclare base size s).fcause = s.fcause := rfl
@[simp] theorem hostDeclare_fcmd (base : Word) (size : Nat) : (hostDeclare base size s).fcmd = s.fcmd := rfl
@[simp] theorem hostDeclare_fidx (base : Word) (size : Nat) : (hostDeclare base size s).fidx = s.fidx := rfl
@[simp] theorem hostDeclare_cmdIdx (base : Word) (size : Nat) : (hostDeclare base size s).cmdIdx = s.cmdIdx := rfl
@[simp] theorem hostDeclare_rptr (base : Word) (size : Nat) : (hostDeclare base size s).rptr = s.rptr := rfl
@[simp] theorem hostDeclare_cmd (base : Word) (size : Nat) : (hostDeclare base size s).cmd = s.cmd := rfl
@[simp] theorem hostDeclare_resp (base : Word) (size : Nat) : (hostDeclare base size s).resp = s.resp := rfl
@[simp] theorem hostDeclare_mem (base : Word) (size : Nat) : (hostDeclare base size s).mem = s.mem := rfl
@[simp] theorem hostDeclare_readable (base : Word) (size : Nat) : (hostDeclare base size s).readable = s.readable ++ [{ base := base, size := size, late := s.cmd.length }] := rfl
@[simp] theorem hostDeclare_raced (base : Word) (size : Nat) : (hostDeclare base size s).raced = s.raced := rfl
@[simp] theorem hostDeclare_draws (base : Word) (size : Nat) : (hostDeclare base size s).draws = s.draws := rfl
@[simp] theorem hostDeclare_n (base : Word) (size : Nat) : (hostDeclare base size s).n = s.n := rfl
@[simp] theorem hostDeclare_lane (base : Word) (size : Nat) (k l : Nat) : (hostDeclare base size s).lane k l = s.lane k l := rfl

end Sys2Proof.Machine
end

