-- ==== Sys2Proof/Laws/Ops.lean ====
section
/-! SUPPORT. What each shared operation can do, said once: the register file and its views, instance-major lists, starting and
completing a command. -/

namespace Sys2Proof.Machine

/-! ## The register file -/

@[simp] theorem width_pos (n : Width) : 0 < n.n := by cases n <;> decide

theorem width_le (n : Width) : n.n ≤ 8 := by cases n <;> decide

theorem laneAt_canonOf {f : Nat → Word} {l : Nat} (h : l < 25) : laneAt (canonOf f) l = f l := by
  simp [laneAt, canonOf, List.getD_eq_getElem?_getD, h]

@[simp] theorem canonOf_length (f : Nat → Word) : (canonOf f).length = 25 := by simp [canonOf]

/-- Two canonical states with the same 25 lanes are equal. -/
theorem canonOf_congr {f g : Nat → Word} (h : ∀ l, l < 25 → f l = g l) : canonOf f = canonOf g :=
  List.map_congr_left fun l hl => h l (List.mem_range.1 hl)

theorem canonOf_laneAt (a : Canon) (h : a.length = 25) : canonOf (laneAt a) = a := by
  refine List.ext_getElem (by simp [h]) fun i h1 h2 => ?_
  simp [canonOf, laneAt, List.getD_eq_getElem?_getD, h2]

theorem elemAt_vfileOf {n : Nat} {f : Nat → Nat → Word} {l k : Nat} (hl : l < 25) (hk : k < n) :
    elemAt (vfileOf n f) l k = f k l := by
  simp [elemAt, vfileOf, List.getD_eq_getElem?_getD, hl, hk]

theorem vfileOf_shaped (n : Nat) (f : Nat → Nat → Word) : VFile.shaped n (vfileOf n f) := by
  refine ⟨by simp [vfileOf], fun r hr => ?_⟩
  obtain ⟨l, -, rfl⟩ := List.mem_map.1 hr
  simp

theorem vfileOf_congr {n : Nat} {f g : Nat → Nat → Word} (h : ∀ k l, k < n → l < 25 → f k l = g k l) :
    vfileOf n f = vfileOf n g :=
  List.map_congr_left fun l hl =>
    List.map_congr_left fun k hk => h k l (List.mem_range.1 hk) (List.mem_range.1 hl)

/-- A register file of the right shape is its own lanes (R20). -/
theorem vfileOf_elemAt {n : Nat} {v : VFile} (h : VFile.shaped n v) : vfileOf n (fun k l => elemAt v l k) = v := by
  refine List.ext_getElem (by simp [vfileOf, h.1]) fun l h1 h2 => ?_
  have hn : v[l].length = n := h.2 _ (List.getElem_mem h2)
  refine List.ext_getElem (by simp [vfileOf, hn]) fun k h3 h4 => ?_
  simp [vfileOf, elemAt, List.getD_eq_getElem?_getD, h2, h4]

/-- Lane l of instance k after setLanes. -/
theorem lane_setLanes (s : State) (f : Nat → Nat → Word) {k l : Nat} (hk : k < s.n) (hl : l < 25) :
    (s.setLanes f).lane k l = f k l :=
  elemAt_vfileOf hl hk

theorem laneAt_canonical (s : State) (k : Nat) {l : Nat} (hl : l < 25) : laneAt (s.canonical k) l = s.lane k l :=
  laneAt_canonOf hl

/-! ## The state operations of the commands -/

/-- PERM's effect on a lane (R85). -/
theorem lane_permuteAll (r : Nat) (s : State) {k l : Nat} (hk : k < s.n) (hl : l < 25) :
    (permuteAll r s).lane k l = laneAt (keccakP (s.canonical k) r) l := by
  unfold permuteAll
  rw [lane_setLanes s _ hk hl]
  simp [List.getD_eq_getElem?_getD, hk]

/-- The effect of an xor into a block on a lane (R102, R106). -/
theorem lane_xorBlock (o c : Nat) (w : Nat → Nat → Word) (s : State) {k l : Nat} (hk : k < s.n) (hl : l < 25) :
    (xorBlock o c w s).lane k l = if inBlock o c l then s.lane k l ^^^ w k (l - o) else s.lane k l :=
  lane_setLanes s _ hk hl

/-- The effect of a block transpose on a lane (R100): the new S_k(b + i) is the old S_i(b + k). -/
theorem lane_transposeBlock (b : Nat) (s : State) {k l : Nat} (hk : k < s.n) (hl : l < 25) :
    (transposeBlock b s).lane k l = if inBlock b s.n l then s.lane (l - b) (b + k) else s.lane k l := by
  unfold transposeBlock
  rw [lane_setLanes s _ hk hl]
  split
  · next h =>
    have h1 : l - b < s.n := by omega
    simp [elemAt, fastInterleave, registerBlock, State.lane, List.getD_eq_getElem?_getD, h1, hk]
  · rfl

/-- LDST's register file, lane by lane (R97). -/
theorem elemAt_interleave_payload (n : Nat) (ws : List Word) {k l : Nat} (hk : k < n) (hl : l < 25) :
    elemAt (interleave n (payloadStates n ws)) l k = instanceWord ws 25 k l := by
  unfold interleave
  rw [elemAt_vfileOf hl hk]
  simp [payloadStates, List.getD_eq_getElem?_getD, hk, laneAt, canonOf, hl]

/-! ## Instance-major lists -/

@[simp] theorem instanceMajor_length (n len : Nat) (f : Nat → Nat → Word) : (instanceMajor n len f).length = n * len := by
  simp [instanceMajor, List.length_flatMap]

theorem instanceMajor_succ (n len : Nat) (f : Nat → Nat → Word) :
    instanceMajor (n + 1) len f = instanceMajor n len f ++ (List.range len).map (f n) := by
  simp [instanceMajor, List.range_succ]

/-- Word number len * k + i of an instance-major list is f k i (R68). -/
theorem instanceWord_instanceMajor (n len : Nat) (f : Nat → Nat → Word) {k i : Nat} (hk : k < n) (hi : i < len) :
    instanceWord (instanceMajor n len f) len k i = f k i := by
  unfold instanceWord
  induction n with
  | zero => omega
  | succ n ih =>
    rw [instanceMajor_succ, List.getD_eq_getElem?_getD]
    rcases Nat.lt_succ_iff_lt_or_eq.1 hk with h | h
    · have hlt : len * k + i < (instanceMajor n len f).length := by
        rw [instanceMajor_length]
        calc len * k + i < len * k + len := by omega
          _ = (k + 1) * len := by ring
          _ ≤ n * len := Nat.mul_le_mul_right _ h
      rw [List.getElem?_append_left hlt, ← List.getD_eq_getElem?_getD]
      exact ih h
    · subst h
      rw [List.getElem?_append_right (by simp [Nat.mul_comm])]
      simp [Nat.mul_comm, hi]

/-- A list of n * len words is the instance-major list of its own words. -/
theorem instanceMajor_instanceWord (n len : Nat) (ws : List Word) (h : ws.length = n * len) :
    instanceMajor n len (instanceWord ws len) = ws := by
  refine List.ext_getElem? fun j => ?_
  by_cases hj : j < n * len
  · have hlen : 0 < len := by
      rcases Nat.eq_zero_or_pos len with h0 | h0
      · subst h0; omega
      · exact h0
    have hk : j / len < n := Nat.div_lt_of_lt_mul (by rwa [Nat.mul_comm] at hj)
    have hi : j % len < len := Nat.mod_lt _ hlen
    have e := instanceWord_instanceMajor n len (instanceWord ws len) hk hi
    unfold instanceWord at e
    rw [Nat.div_add_mod, List.getD_eq_getElem?_getD, List.getD_eq_getElem?_getD] at e
    rw [List.getElem?_eq_getElem (by simpa using hj), List.getElem?_eq_getElem (by omega)]
    have h1 : j < (instanceMajor n len (instanceWord ws len)).length := by simpa using hj
    have h2 : j < ws.length := by omega
    rw [show instanceMajor n len (fun k i => ws.getD (len * k + i) 0) = instanceMajor n len (instanceWord ws len) from rfl,
      List.getElem?_eq_getElem h1, List.getElem?_eq_getElem h2] at e
    simpa using e
  · rw [List.getElem?_eq_none (by simpa using hj), List.getElem?_eq_none (by omega)]

/-- STST's response words are instance-major (R98). -/
theorem uninterleave_flatten (n : Nat) (v : VFile) :
    (uninterleave n v).flatten = instanceMajor n 25 fun k l => elemAt v l k := by
  simp [uninterleave, instanceMajor, canonOf, List.flatMap]

/-! ## Starting and completing a command -/

/-- All that start can do: hold, or run the effect on the payload. -/
theorem start_cases (p e : Nat) (s : State) (effect : List Word → Answer) :
    (start p e s effect = .next s ∧ (s.cmd.length < 1 + p ∨ hasRoom e s = false)) ∨
      (start p e s effect = effect ((s.cmd.drop 1).take p) ∧ 1 + p ≤ s.cmd.length ∧ hasRoom e s = true) := by
  unfold start
  split
  · next h => exact .inl ⟨rfl, .inl h⟩
  · next h =>
    split
    · next hr => exact .inr ⟨rfl, by omega, hr⟩
    · next hr => exact .inl ⟨rfl, .inr (by simpa using hr)⟩

/-- A command whose header and payload are at the head of the channel, and whose responses have room, starts with that
payload. -/
theorem start_run {p e : Nat} {s : State} {h : Word} {payload rest : List Word} (effect : List Word → Answer)
    (hc : s.cmd = h :: (payload ++ rest)) (hp : payload.length = p) (hr : hasRoom e s = true) :
    start p e s effect = effect payload := by
  unfold start
  rw [if_neg (by simp [hc, hp]; omega), if_pos hr, hc]
  simp [← hp]

@[simp] theorem hasRoom_zero_of_none {s : State} (e : Nat) (h : s.cfg.respDepth = none) : hasRoom e s = true := by
  simp [hasRoom, h]

/-- Completion leaves everything alone that `State.retired` says it does, if the command's own effect did. -/
theorem complete_retired {p : Nat} {s u : State} (hf : s.sameFixed u) (h1 : u.cmd = s.cmd) (h2 : u.rptr = s.rptr)
    (h3 : u.cmdIdx = s.cmdIdx) (h4 : u.readable = s.readable) (h5 : u.raced = s.raced) : s.retired p (complete p u) where
  fixed := ⟨hf.cfg, hf.fault, hf.fcause, hf.fcmd, hf.fidx, hf.mem⟩
  cmd := by simp [h1]
  rptr := by simp [h2]
  cmdIdx := by simp [h3]
  readable := by simp [h4]
  raced := by simp [h5]

end Sys2Proof.Machine
end

