-- ==== Sys2Proof/Laws/Exec.lean ====
section
/-! SUPPORT. What exec and step can do, said once: every command is its field check, its LOADED check, its two holds and its
effect, in that order; and all that a step can answer. -/

namespace Sys2Proof.Machine

/-! ## A command's checks and its effect -/

/-- The fault of a command's own fields, if they are outside R64's table. -/
def fieldFault (n : Width) : Instr → Option Cause
  | .perm r => if roundsOk r then none else some .roundsRange
  | .cmps => none
  | .ldst => none
  | .stst => none
  | .ftrn o => if blockFits o n.n then none else some .laneBound
  | .ldxr o l =>
      if absorbLanesOk l then if blockFits o l.toNat then none else some .laneBound else some .lanesRange
  | .xorl o l =>
      if absorbLanesOk l then if blockFits o l.toNat then none else some .laneBound else some .lanesRange
  | .extl o l =>
      if extractLanesOk l then if blockFits o l.toNat then none else some .laneBound else some .lanesRange

/-- What a command does to the state once it has started with this payload, before it completes. -/
def effectOf : Instr → State → List Word → State
  | .perm r, s, _ => permuteAll r.toNat s
  | .cmps, s, q => advanceDraws (if cmpsDraws q s then 1 else 0) (emit [cmpsResult q s] s)
  | .ldst, s, ws => setLoaded { s with v := interleave s.n (payloadStates s.n ws) }
  | .stst, s, _ => emit (uninterleave s.n s.v).flatten s
  | .ftrn o, s, _ => transposeBlock o.toNat s
  | .ldxr o l, s, ptrs =>
      advanceDraws (8 * (l.toNat * s.n)) (xorBlock o.toNat l.toNat (ldxrWord s ptrs o.toNat l.toNat) s)
  | .xorl o l, s, ws => xorBlock o.toNat l.toNat (fun k i => instanceWord ws l.toNat k i) s
  | .extl o l, s, _ => emit (instanceMajor s.n l.toNat fun k i => s.lane k (o.toNat + i)) s

/-- The command has a step with this payload: for LDXR, all its bytes are admitted (R45). -/
def hasStep : Instr → State → List Word → Bool
  | .ldxr o l, s, ptrs => ldxrAdmitted s ptrs o.toNat l.toNat
  | .perm _, _, _ => true
  | .cmps, _, _ => true
  | .ldst, _, _ => true
  | .stst, _, _ => true
  | .ftrn _, _, _ => true
  | .xorl _ _, _, _ => true
  | .extl _ _, _, _ => true

/-- The answer of a command that has started with this payload. -/
def answerOf (i : Instr) (s : State) (ws : List Word) : Answer :=
  if hasStep i s ws then .next (complete (payloadWords s.cfg.width i) (effectOf i s ws)) else .fault .ldxrNotAdmitted

/-- Every meaning, in one form. -/
theorem exec_eq (i : Instr) (s : State) :
    exec i s =
      match fieldFault s.cfg.width i with
      | some c => raise c i s
      | none =>
        if needsLoaded i && !s.loaded then raise .notLoaded i s
        else start (payloadWords s.cfg.width i) (responseWords s.cfg.width i) s (answerOf i s) := by
  cases i with
  | perm r =>
    simp only [exec, execPerm, fieldFault, needsLoaded]
    cases roundsOk r <;> cases s.loaded <;> rfl
  | cmps =>
    simp only [exec, execCmps, fieldFault, needsLoaded]
    cases s.loaded <;> rfl
  | ldst => rfl
  | stst =>
    simp only [exec, execStst, fieldFault, needsLoaded]
    cases s.loaded <;> rfl
  | ftrn o =>
    rcases Bool.eq_false_or_eq_true (blockFits o s.cfg.width.n) with hb | hb <;> cases hl : s.loaded <;>
      simp only [exec, execFtrn, fieldFault, needsLoaded, State.n, hb, hl] <;> rfl
  | ldxr o l =>
    simp only [exec, execLdxr, fieldFault, needsLoaded]
    cases absorbLanesOk l <;> cases blockFits o l.toNat <;> cases s.loaded <;> rfl
  | xorl o l =>
    simp only [exec, execXorl, fieldFault, needsLoaded]
    cases absorbLanesOk l <;> cases blockFits o l.toNat <;> cases s.loaded <;> rfl
  | extl o l =>
    simp only [exec, execExtl, fieldFault, needsLoaded]
    cases extractLanesOk l <;> cases blockFits o l.toNat <;> cases s.loaded <;> rfl

/-- A command's fields raise no fault exactly if it is well formed. -/
theorem fieldFault_eq_none_iff (n : Width) (i : Instr) : fieldFault n i = none ↔ i.wellFormed n = true := by
  have two : ∀ {p q : Prop} [Decidable p] [Decidable q] {a b : Cause},
      (if decide p = true then if decide q = true then none else some a else some b) = none ↔ decide (p ∧ q) = true := by
    intro p q _ _ a b
    by_cases hp : p <;> by_cases hq : q <;> simp [hp, hq]
  cases i with
  | perm r => simp [fieldFault, Instr.wellFormed, roundsOk]
  | cmps => simp [fieldFault, Instr.wellFormed]
  | ldst => simp [fieldFault, Instr.wellFormed]
  | stst => simp [fieldFault, Instr.wellFormed]
  | ftrn o => simp [fieldFault, Instr.wellFormed, blockFits]
  | ldxr o l => exact two.trans (by simp [Instr.wellFormed, and_assoc])
  | xorl o l => exact two.trans (by simp [Instr.wellFormed, and_assoc])
  | extl o l => exact two.trans (by simp [Instr.wellFormed, and_assoc])

/-- A command that can run, with its payload behind its header, is its answer on that payload. -/
theorem exec_of_canRun {i : Instr} {s : State} {payload rest : List Word} (hc : s.hasCommand i payload rest)
    (hr : s.canRun i) : exec i s = answerOf i s payload := by
  obtain ⟨hw, hl, hroom⟩ := hr
  have hload : (needsLoaded i && !s.loaded) = false := by
    cases h : needsLoaded i
    · rfl
    · simp [hl h]
  rw [exec_eq, (fieldFault_eq_none_iff _ _).2 hw]
  simp only [hload, Bool.false_eq_true, if_false]
  exact start_run _ hc.1 hc.2 hroom

/-- What a command's own effect may write: V (kept in shape), LOADED (never cleared), the responses, the draws. -/
structure State.effect (e : Nat) (s u : State) : Prop where
  fixed : s.sameFixed u
  cmd : u.cmd = s.cmd
  rptr : u.rptr = s.rptr
  cmdIdx : u.cmdIdx = s.cmdIdx
  readable : u.readable = s.readable
  raced : u.raced = s.raced
  memory : u.mem = s.mem
  shape : VFile.shaped s.n s.v → VFile.shaped s.n u.v
  loaded : s.loaded = true → u.loaded = true
  resp : ∃ ws : List Word, ws.length = e ∧ u.resp = s.resp ++ ws

/-- Every command's effect is one of those. -/
theorem effectOf_effect (i : Instr) (s : State) (ws : List Word) :
    s.effect (responseWords s.cfg.width i) (effectOf i s ws) := by
  have same : s.sameFixed s := ⟨rfl, rfl, rfl, rfl, rfl, fun _ => rfl⟩
  have lanes : ∀ f, s.effect 0 (s.setLanes f) := fun f =>
    ⟨⟨rfl, rfl, rfl, rfl, rfl, fun _ => rfl⟩, rfl, rfl, rfl, rfl, rfl, rfl, fun _ => vfileOf_shaped _ _, id, [], rfl, by simp⟩
  have emits : ∀ us : List Word, s.effect us.length (emit us s) := fun us =>
    ⟨⟨rfl, rfl, rfl, rfl, rfl, fun _ => rfl⟩, rfl, rfl, rfl, rfl, rfl, rfl, id, id, us, rfl, rfl⟩
  have draws : ∀ {e u} c, s.effect e u → s.effect e (advanceDraws c u) := fun c h =>
    ⟨⟨h.fixed.cfg, h.fixed.fault, h.fixed.fcause, h.fixed.fcmd, h.fixed.fidx, h.fixed.mem⟩, h.cmd, h.rptr, h.cmdIdx,
      h.readable, h.raced, h.memory, h.shape, h.loaded, h.resp⟩
  cases i with
  | perm r => exact lanes _
  | cmps => exact draws _ (emits [_])
  | ldst =>
    exact ⟨⟨rfl, rfl, rfl, rfl, rfl, fun _ => rfl⟩, rfl, rfl, rfl, rfl, rfl, rfl, fun _ => vfileOf_shaped _ _,
      fun _ => rfl, [], rfl, by simp [effectOf]⟩
  | stst =>
    have h := emits (uninterleave s.n s.v).flatten
    rwa [uninterleave_flatten, instanceMajor_length, Nat.mul_comm, ← uninterleave_flatten] at h
  | ftrn o => exact lanes _
  | ldxr o l => exact draws _ (lanes _)
  | xorl o l => exact lanes _
  | extl o l =>
    have h := emits (instanceMajor s.n l.toNat fun k i => s.lane k (o.toNat + i))
    rwa [instanceMajor_length] at h

/-- All that exec can do: take a fault, hold, be stuck, or complete with the command's effect. -/
theorem exec_cases (i : Instr) (s : State) :
    (∃ c, exec i s = .next (takeFault c (encode i) s)) ∨
      exec i s = .next s ∨
      (exec i s = .fault .ldxrNotAdmitted ∧ s.loaded = true ∧ ∃ o l, i = .ldxr o l) ∨
      ∃ ws, exec i s = .next (complete (payloadWords s.cfg.width i) (effectOf i s ws)) ∧
        (needsLoaded i = true → s.loaded = true) ∧
        1 + payloadWords s.cfg.width i ≤ s.cmd.length ∧ hasRoom (responseWords s.cfg.width i) s = true := by
  rw [exec_eq]
  cases fieldFault s.cfg.width i with
  | some c => exact .inl ⟨c, rfl⟩
  | none =>
    simp only
    split
    · exact .inl ⟨_, rfl⟩
    · next hl =>
      have hload : needsLoaded i = true → s.loaded = true := fun h => by simpa [h] using hl
      rcases start_cases (payloadWords s.cfg.width i) (responseWords s.cfg.width i) s (answerOf i s) with
        ⟨h, -⟩ | ⟨h, hp, hr⟩
      · exact .inr (.inl h)
      · rw [h]
        unfold answerOf
        split
        · exact .inr (.inr (.inr ⟨_, rfl, hload, hp, hr⟩))
        · next hs =>
          refine .inr (.inr (.inl ?_))
          cases i with
          | ldxr o l => exact ⟨rfl, hload rfl, o, l, rfl⟩
          | _ => exact absurd rfl hs

/-! ## What a step can do -/

/-- A running engine's step on a command in its channel. -/
theorem step_eq_exec {s : State} {h : Word} {rest : List Word} {i : Instr} (hc : configLegal s.cfg = true)
    (hf : s.fault = false) (hcmd : s.cmd = h :: rest) (hd : decode h = .command i) : step s = exec i s := by
  simp [step, fetch, fetchHead, hc, hf, hcmd, hd]

/-- All that a step can do: nothing (halted or idle), take a decoding fault, run a command, or be refused. -/
theorem step_cases (s : State) :
    (step s = .refused .illegalConfiguration ∧ configLegal s.cfg = false) ∨
      (step s = .next s ∧ (s.fault = true ∨ s.cmd = [])) ∨
      (∃ c h rest, s.cmd = h :: rest ∧ s.fault = false ∧ step s = .next (takeFault c h s)) ∨
      ∃ h rest i, s.cmd = h :: rest ∧ s.fault = false ∧ decode h = .command i ∧ step s = exec i s := by
  by_cases hc : configLegal s.cfg = true
  · by_cases hf : s.fault = true
    · exact .inr (.inl ⟨by simp [step, fetch, hc, hf], .inl hf⟩)
    · have hf' : s.fault = false := by simpa using hf
      cases hcmd : s.cmd with
      | nil => exact .inr (.inl ⟨by simp [step, fetch, fetchHead, hc, hf', hcmd], .inr rfl⟩)
      | cons h rest =>
        cases hd : decode h with
        | reject r => exact .inr (.inr (.inl ⟨rejectCause r, h, rest, rfl, hf', by
            simp [step, fetch, fetchHead, hc, hf', hcmd, hd]⟩))
        | command i => exact .inr (.inr (.inr ⟨h, rest, i, rfl, hf', hd, step_eq_exec hc hf' hcmd hd⟩))
  · exact .inl ⟨by simp [step, fetch, hc], by simpa using hc⟩

end Sys2Proof.Machine
end

