-- ==== Sys2Proof/Laws/Memory.lean ====
section
/-! SUPPORT. The laws of sorted lists and of host memory: a read after a write, a write elsewhere, and that every operation
keeps the canonical form. -/

namespace Sys2Proof.Machine

variable {β : Type}

theorem sortedGet_set (m : List (Nat × β)) (a a' : Nat) (b : β) :
    sortedGet (sortedSet m a b) a' = if a = a' then some b else sortedGet m a' := by
  induction m with
  | nil => simp [sortedSet, sortedGet]
  | cons p t ih =>
    obtain ⟨k, w⟩ := p
    simp only [sortedSet]
    split
    · simp [sortedGet]
    · split
      · subst_vars
        by_cases h : k = a' <;> simp [sortedGet, h]
      · simp only [sortedGet, ih]
        split <;> split <;> first | rfl | omega

theorem sortedGet_erase (m : List (Nat × β)) (a a' : Nat) :
    sortedGet (sortedErase m a) a' = if a = a' then none else sortedGet m a' := by
  induction m with
  | nil => simp [sortedErase, sortedGet]
  | cons p t ih =>
    obtain ⟨k, w⟩ := p
    unfold sortedErase at ih ⊢
    by_cases hk : k = a
    · subst hk
      rw [List.filter_cons_of_neg (by simp), ih]
      simp only [sortedGet]
      split <;> rfl
    · rw [List.filter_cons_of_pos (by simpa using hk)]
      simp only [sortedGet, ih]
      split <;> split <;> first | rfl | omega

theorem mem_sortedSet (m : List (Nat × β)) (a : Nat) (b : β) (p : Nat × β) (h : p ∈ sortedSet m a b) :
    p = (a, b) ∨ p ∈ m := by
  induction m with
  | nil => exact .inl (by simpa [sortedSet] using h)
  | cons q t ih =>
    obtain ⟨k, w⟩ := q
    simp only [sortedSet] at h
    split at h
    · simpa using h
    · split at h <;> simp only [List.mem_cons] at h ⊢ <;> tauto

/-- Setting keeps the addresses strictly rising. -/
theorem rising_set (m : List (Nat × β)) (a : Nat) (b : β) (h : rising m) : rising (sortedSet m a b) := by
  induction m with
  | nil => exact List.pairwise_singleton _ _
  | cons p t ih =>
    obtain ⟨k, w⟩ := p
    have ht : rising t := (List.pairwise_cons.1 h).2
    have hk : ∀ x ∈ t, k < x.1 := fun x hx => (List.pairwise_cons.1 h).1 _ (List.mem_map_of_mem hx)
    simp only [sortedSet]
    split
    · next hlt =>
      refine List.pairwise_cons.2 ⟨?_, h⟩
      simp only [List.map_cons, List.mem_cons, List.mem_map]
      rintro x (rfl | ⟨y, hy, rfl⟩)
      · exact hlt
      · exact hlt.trans (hk y hy)
    · split
      · next heq => subst heq; exact h
      · refine List.pairwise_cons.2 ⟨?_, ih ht⟩
        simp only [List.mem_map]
        rintro x ⟨y, hy, rfl⟩
        rcases mem_sortedSet _ _ _ _ hy with rfl | hy
        · show k < a
          omega
        · exact hk y hy

/-- Erasing keeps the addresses strictly rising. -/
theorem rising_erase (m : List (Nat × β)) (a : Nat) (h : rising m) : rising (sortedErase m a) :=
  h.sublist (List.filter_sublist.map _)

theorem read_write (m : Memory) (a : Word) (b : Byte) (a' : Nat) :
    (m.write a b).read a' = if a.toNat = a' then some b else m.read a' :=
  sortedGet_set m a.toNat a' b

/-- A write keeps memory's canonical form. -/
theorem write_wf (m : Memory) (a : Word) (b : Byte) (h : Memory.wf m) : Memory.wf (m.write a b) := by
  refine ⟨rising_set _ _ _ h.1, fun c hc => ?_⟩
  rcases mem_sortedSet _ _ _ _ hc with rfl | hc
  · exact a.isLt
  · exact h.2 c hc

/-- Memory after reset has the canonical form. -/
theorem resetOf_mem_wf (c : Config) : Memory.wf (State.resetOf c).mem :=
  ⟨List.Pairwise.nil, fun _ h => absurd h List.not_mem_nil⟩

/-- A mark's count when c words are consumed: it falls by c, and a mark that would reach 0 is gone. -/
theorem sortedGet_ageRaces (c : Nat) (m : List (Nat × Nat)) (h : rising m) (a : Nat) :
    sortedGet (ageRaces c m) a = (sortedGet m a).bind fun n => if n - c = 0 then none else some (n - c) := by
  induction m with
  | nil => rfl
  | cons p t ih =>
    obtain ⟨k, n⟩ := p
    have ht := ih (List.pairwise_cons.1 h).2
    have hk : ∀ x ∈ t, k < x.1 := fun x hx => (List.pairwise_cons.1 h).1 _ (List.mem_map_of_mem hx)
    unfold ageRaces at ht ⊢
    rw [List.map_cons]
    by_cases hn : n - c = 0
    · rw [List.filter_cons_of_neg (by simpa using hn), ht]
      by_cases ha : k = a
      · subst ha
        have hnone : sortedGet t k = none := by
          clear ih ht h
          induction t with
          | nil => rfl
          | cons q u ihu =>
            have hq := hk q (by simp)
            simp only [sortedGet]
            rw [if_neg (by omega)]
            exact ihu fun x hx => hk x (by simp [hx])
        simp [sortedGet, hnone, hn]
      · simp [sortedGet, ha]
    · rw [List.filter_cons_of_pos (by simpa using hn)]
      by_cases ha : k = a
      · subst ha
        simp [sortedGet, hn]
      · simp only [sortedGet, ha, if_false]
        exact ht

/-- Aging keeps the marks' canonical form. -/
theorem rising_ageRaces (c : Nat) (m : List (Nat × Nat)) (h : rising m) : rising (ageRaces c m) := by
  have : rising (m.map fun p => (p.1, p.2 - c)) := by
    unfold rising
    rw [List.map_map]
    exact h
  exact this.sublist (List.filter_sublist.map _)

end Sys2Proof.Machine
end

