-- ==== Sys2Proof/Laws/PerInstr.lean ====
section
/-! SUPPORT. Statements made per command: the shape of every encoded header (spec 30_encoding R56, R61, R65). -/

namespace Sys2Proof.Laws.HeaderShape

/-- The command's row of the opcode map (R65). -/
def opcode : Instr → Opcode
  | .perm _ => .perm
  | .cmps => .cmps
  | .ldst => .ldst
  | .stst => .stst
  | .ftrn _ => .ftrn
  | .ldxr _ _ => .ldxr
  | .xorl _ _ => .xorl
  | .extl _ _ => .extl

/-- The header of i carries i's opcode, and its reserved fields are 0. -/
def Statement (i : Instr) : Prop :=
  opField (encode i) = (opcode i).code ∧ rsvA (encode i) = 0 ∧ rsvB (encode i) = 0 ∧ rsvC (encode i) = 0

/-- Every header word has the shape of its opcode. -/
theorem headerWord_shape (op : Opcode) (r o l : Field) :
    opField (headerWord op r o l) = op.code ∧ rsvA (headerWord op r o l) = 0 ∧ rsvB (headerWord op r o l) = 0 ∧
      rsvC (headerWord op r o l) = 0 :=
  ⟨opField_headerWord op r o l, rsvA_headerWord op r o l, rsvB_headerWord op r o l, rsvC_headerWord op r o l⟩

theorem perm (rounds : Field) : Statement (.perm rounds) := headerWord_shape _ _ _ _
theorem cmps : Statement .cmps := headerWord_shape _ _ _ _
theorem ldst : Statement .ldst := headerWord_shape _ _ _ _
theorem stst : Statement .stst := headerWord_shape _ _ _ _
theorem ftrn (offset : Field) : Statement (.ftrn offset) := headerWord_shape _ _ _ _
theorem ldxr (offset lanes : Field) : Statement (.ldxr offset lanes) := headerWord_shape _ _ _ _
theorem xorl (offset lanes : Field) : Statement (.xorl offset lanes) := headerWord_shape _ _ _ _
theorem extl (offset lanes : Field) : Statement (.extl offset lanes) := headerWord_shape _ _ _ _

end Sys2Proof.Laws.HeaderShape
end

