-- ==== Sys2Proof/Tests/Slice0.lean ====
section
/-! SUPPORT. The model's own tests: expected values are those of spec/95_test_vectors.md (named by their ids there) or worked out
by hand from the rule named. Then, for every statement with hypotheses, a witness that meets all of them together. -/

namespace Sys2Proof.Tests
open Sys2Proof Sys2Proof.Machine

set_option Elab.async false

/-! ## Helpers -/

/-- A legal configuration of width w. -/
def cfg (w : Width) : Config :=
  { Config.default with
    width := w
    variant := match w with | .w1 => .scalar | _ => .batched
    isaTarget := match w with | .w1 => none | _ => some .portableArray }

/-- The same with the smallest legal response channel. -/
def shallow (w : Width) : Config := { cfg w with respDepth := some (25 * w.n) }

/-- A loaded engine with S_k(l) = f k l and these words in its command channel. -/
def loaded (c : Config) (f : Nat → Nat → Word) (cmd : List Word) : State :=
  { State.resetOf c with v := vfileOf c.width.n f, loaded := true, cmd := cmd }

/-- An engine after reset with these words in its command channel. -/
def fresh (c : Config) (cmd : List Word) : State := { State.resetOf c with cmd := cmd }

/-- The zero state. -/
def zero : Nat → Nat → Word := fun _ _ => 0

/-- The state seq of 95, in every instance. -/
def seq : Nat → Nat → Word := fun _ l => BitVec.ofNat 64 l

/-- A view of the next state, if the answer is one. -/
def view {α : Type} (f : State → α) : Answer → Option α
  | .next t => some (f t)
  | .fault _ => none
  | .refused _ => none

/-- A header word from its fields, written out in the order of R56. -/
def bits (c : BitVec 35) (l : BitVec 5) (b : BitVec 3) (o : BitVec 5) (a : BitVec 3) (r : BitVec 5) (op : BitVec 8) : Word :=
  c ++ l ++ b ++ o ++ a ++ r ++ op

/-- The host memory of T-X1 to T-X4: bytes 0x1000 + i hold i for i < 200, all declared readable. -/
def withBytes (s : State) : State :=
  { s with
    mem := (List.range 200).map fun i => (0x1000 + i, BitVec.ofNat 8 i)
    readable := [{ base := 0x1000, size := 200, late := 0 }] }

/-! ## Well-formed commands (R64) -/

theorem test_wf_perm : Instr.wellFormed .w1 (.perm 24) = true ∧ Instr.wellFormed .w1 (.perm 25) = false := by decide

theorem test_wf_ftrn :
    Instr.wellFormed .w1 (.ftrn 24) = true ∧ Instr.wellFormed .w1 (.ftrn 25) = false ∧
    Instr.wellFormed .w4 (.ftrn 21) = true ∧ Instr.wellFormed .w4 (.ftrn 22) = false ∧
    Instr.wellFormed .w8 (.ftrn 17) = true ∧ Instr.wellFormed .w8 (.ftrn 18) = false := by decide

theorem test_wf_ldxr :
    Instr.wellFormed .w1 (.ldxr 1 24) = true ∧ Instr.wellFormed .w1 (.ldxr 0 0) = false ∧
    Instr.wellFormed .w1 (.ldxr 0 25) = false ∧ Instr.wellFormed .w1 (.ldxr 24 2) = false := by decide

theorem test_wf_xorl :
    Instr.wellFormed .w1 (.xorl 24 1) = true ∧ Instr.wellFormed .w1 (.xorl 0 0) = false ∧
    Instr.wellFormed .w1 (.xorl 0 25) = false ∧ Instr.wellFormed .w1 (.xorl 2 24) = false := by decide

theorem test_wf_extl :
    Instr.wellFormed .w1 (.extl 0 25) = true ∧ Instr.wellFormed .w1 (.extl 0 0) = false ∧
    Instr.wellFormed .w1 (.extl 0 26) = false ∧ Instr.wellFormed .w1 (.extl 25 1) = false := by decide

/-! ## Decoding (R56, R65): each header written out bit by bit -/

theorem test_decode_perm : decode (bits 0 0b00000 0 0b00000 0 0b11000 0b00000001) = .command (.perm 24) := by decide

theorem test_decode_cmps : decode (bits 0 0b00000 0 0b00000 0 0b00000 0b00000010) = .command .cmps := by decide

theorem test_decode_ldst : decode (bits 0 0b00000 0 0b00000 0 0b00000 0b00000011) = .command .ldst := by decide

theorem test_decode_stst : decode (bits 0 0b00000 0 0b00000 0 0b00000 0b00000100) = .command .stst := by decide

theorem test_decode_ftrn : decode (bits 0 0b00000 0 0b10001 0 0b00000 0b00000101) = .command (.ftrn 17) := by decide

theorem test_decode_ldxr : decode (bits 0 0b00010 0 0b11000 0 0b00000 0b00000110) = .command (.ldxr 24 2) := by decide

theorem test_decode_xorl : decode (bits 0 0b00011 0 0b10110 0 0b00000 0b00000111) = .command (.xorl 22 3) := by decide

theorem test_decode_extl : decode (bits 0 0b11001 0 0b00000 0 0b00000 0b00001000) = .command (.extl 0 25) := by decide

/-- R61, R62, R65: what is no command, each reason once. -/
theorem test_decode_rejects :
    decode (bits 0 0 0 0 0 0 0x00) = .reject .illegalOpcode ∧
    decode (bits 0 0 0 0 0 0 0x09) = .reject .illegalOpcode ∧
    decode (bits 1 0 0 0 1 0 0xFF) = .reject .illegalOpcode ∧
    decode (bits (1 <<< 34) 0 0 0 0 0 0x03) = .reject .reservedField ∧
    decode (bits 0 0 4 0 0 0 0x01) = .reject .reservedField ∧
    decode (bits 0 0 0 0 4 0 0x08) = .reject .reservedField ∧
    decode (bits 0 0 0 1 0 0 0x01) = .reject .reservedField ∧
    decode (bits 0 1 0 0 0 0 0x05) = .reject .reservedField ∧
    decode (bits 0 1 0 0 0 1 0x07) = .reject .reservedField := by decide

/-! ## The commands -/

/-- T-P2: only round 23 runs, and leaves RC[23] in lane 0. -/
theorem test_perm_one_round :
    view (fun t => (t.lane 0 0, t.lane 0 1, t.lane 0 24, t.cmdIdx, t.rptr)) (step (loaded (cfg .w1) zero [0x101])) =
      some (0x8000000080008008, 0, 0, 1, 1) := by decide +kernel

/-- V1, source lanes 0, 1 and 24. -/
theorem test_perm_golden :
    view (fun t => (t.lane 0 0, t.lane 0 1, t.lane 0 24)) (step (loaded (cfg .w1) zero [0x1801])) =
      some (0xF1258F7940E1DDE7, 0x84D5CCF933C0478A, 0xEAF1FF7B5CECA249) := by decide +kernel

/-- T-P3, lanes 0, 9 and 24 of seq after one round. -/
theorem test_keccak_seq :
    (fun a => (laneAt a 0, laneAt a 9, laneAt a 24)) (keccakP (canonOf (seq 0)) 1) =
      (0x8000180080008012, 0x2000000002200003, 0x0B00000000000074) := by decide +kernel

/-- V9: the tail of the schedule, and not its head. -/
theorem test_keccak_tail : laneAt (keccakP (canonOf (zero 0)) 12) 0 = 0x8E5E5438B9A78617 := by decide +kernel

/-- T-C2: the last lane differs. -/
theorem test_cmps_unequal :
    view (fun t => (t.resp, t.cmdIdx, t.rptr)) (step (loaded (cfg .w1) zero (2 :: (List.replicate 24 0 ++ [1])))) =
      some ([0], 1, 26) := by decide +kernel

/-- T-C3, T-C4 in small: with N = 2 the word of instance 1, lane 0 is payload word 25. -/
theorem test_cmps_equal :
    view (fun t => (t.resp, t.cmd)) (step (loaded (cfg .w2) (fun k l => if l = 0 then BitVec.ofNat 64 k else 0)
      (2 :: (List.replicate 25 0 ++ [1] ++ List.replicate 24 0 ++ [4])))) = some ([1], [4]) := by decide +kernel

/-- T-L1. -/
theorem test_ldst :
    view (fun t => (elemAt t.v 0 0, elemAt t.v 0 1, elemAt t.v 1 0, t.loaded, statusWord t))
      (step (fresh (cfg .w2) (3 :: ([0x11] ++ List.replicate 24 0 ++ [0x22] ++ List.replicate 24 0)))) =
      some (0x11, 0x22, 0, true, 0x6) := by decide +kernel

/-- T-L8: ten of the 25 words. -/
theorem test_ldst_holds :
    step (fresh (cfg .w1) (3 :: List.replicate 10 0)) = .next (fresh (cfg .w1) (3 :: List.replicate 10 0)) := by
  have h : view id (step (fresh (cfg .w1) (3 :: List.replicate 10 0))) = some (fresh (cfg .w1) (3 :: List.replicate 10 0)) := by
    decide +kernel
  revert h
  cases step (fresh (cfg .w1) (3 :: List.replicate 10 0)) <;> simp [view]

/-- T-L2, one STST. -/
theorem test_stst :
    view (fun t => (t.resp, t.cmdIdx)) (step (loaded (cfg .w2)
      (fun k l => if l = 0 then (if k = 0 then 0x11 else 0x22) else 0) [4])) =
      some ([0x11] ++ List.replicate 24 0 ++ [0x22] ++ List.replicate 24 0, 1) := by decide +kernel

/-- T-F1. -/
theorem test_ftrn :
    view (fun t => (t.v.getD 0 [], t.v.getD 1 [])) (step { loaded (cfg .w2) zero [5] with
      v := [[0xA, 0xB], [0xC, 0xD]] ++ List.replicate 23 [0, 0] }) = some ([0xA, 0xC], [0xB, 0xD]) := by decide +kernel

/-- T-F3: the largest block at N = 8. -/
theorem test_ftrn_last_block :
    view (fun t => ((List.range 8).map (fun i => t.lane 0 (17 + i)), t.lane 3 16))
      (step (loaded (cfg .w8) (fun k l => BitVec.ofNat 64 (25 * k + l)) [0x110005])) =
      some ([0x11, 0x2A, 0x43, 0x5C, 0x75, 0x8E, 0xA7, 0xC0], 91) := by decide +kernel

/-- T-X2a and T-X2b: the two readings of LX_BASE. -/
theorem test_ldxr_base :
    view (fun t => (t.lane 0 1, t.lane 0 2, t.lane 0 3)) (step (withBytes (loaded (cfg .w1) zero [0x2020006, 0x1000]))) =
      some (0, 0x1716151413121110, 0x1F1E1D1C1B1A1918) ∧
    view (fun t => (t.lane 0 1, t.lane 0 2, t.lane 0 3))
      (step (withBytes (loaded { cfg .w1 with lxBase := .packed } zero [0x2020006, 0x1000]))) =
      some (0, 0x0706050403020100, 0x0F0E0D0C0B0A0908) := by decide +kernel

/-- T-X3, misaligned; T-X4 reads up to the last declared byte, and one word further is T-X7's stop. -/
theorem test_ldxr_edges :
    view (fun t => (t.lane 0 0, t.rptr)) (step (withBytes (loaded (cfg .w1) zero [0x1000006, 0x1003]))) =
      some (0x0A09080706050403, 2) ∧
    view (fun t => t.lane 0 24) (step (withBytes (loaded (cfg .w1) zero [0x1180006, 0x1000]))) =
      some 0xC7C6C5C4C3C2C1C0 ∧
    view (fun _ => ()) (step (withBytes (loaded (cfg .w1) zero [0x1180006, 0x1001]))) = none := by decide +kernel

/-- T-A3, the XORL: N = 2, each instance its own words. -/
theorem test_xorl :
    view (fun t => (t.lane 0 0, t.lane 0 1, t.lane 0 2, t.lane 1 0, t.lane 1 1, t.rptr))
      (step (loaded (cfg .w2) zero [0x2000007, 0xA, 0xB, 0xC, 0xD])) = some (0xA, 0xB, 0, 0xC, 0xD, 5) := by decide +kernel

/-- V3 step 3: equal words cancel, and lanes 3 and up stay. -/
theorem test_xorl_locality :
    view (fun t => (List.range 6).map (t.lane 0))
      (step (loaded (cfg .w1) (fun _ l => if l < 6 then BitVec.ofNat 64 (l + 1) else 0) [0x3000007, 1, 2, 3])) =
      some [0, 0, 0, 4, 5, 6] := by decide +kernel

/-- T-A3, the EXTL, and T-A5. -/
theorem test_extl :
    view (fun t => t.resp) (step (loaded (cfg .w2)
      (fun k l => if l = 0 then 0xA + 2 * BitVec.ofNat 64 k else if l = 1 then 0xB + 2 * BitVec.ofNat 64 k else 0)
      [0x3000008])) = some [0xA, 0xB, 0, 0xC, 0xD, 0] ∧
    view (fun t => t.resp) (step (loaded (cfg .w1) (fun _ l => BitVec.ofNat 64 (l + 1)) [0x3030008])) =
      some [4, 5, 6] := by decide +kernel

/-! ## Faults, CSRs, holds, the Host -/

/-- The table of 95 section 2.7: header, LOADED, FCAUSE, STATUS. -/
theorem test_fault_table :
    ([(0x0, false, 1, 0x11), (0x9, false, 1, 0x11), (0xFF, false, 1, 0x11), (0x10000000009, false, 1, 0x11),
      (0x2001, false, 2, 0x21), (0x201801, false, 2, 0x21), (0x1901, false, 3, 0x31), (0x1F01, true, 3, 0x33),
      (0x11801, false, 2, 0x21), (0x1801, false, 6, 0x61), (0x1000107, true, 2, 0x23), (0x19000007, true, 4, 0x43),
      (0x19000007, false, 4, 0x41), (0x18020007, true, 5, 0x53), (0x1E1E0007, true, 4, 0x43), (0x7, true, 4, 0x43),
      (0x1A000008, true, 4, 0x43), (0x1190008, true, 5, 0x53), (0x8, true, 4, 0x43)] :
        List (Word × Bool × BitVec 4 × Word)).all (fun r =>
      view (fun t => (t.fault, t.fcause, t.fcmd, t.fidx, t.cmdIdx, t.rptr, t.resp))
          (step { fresh (cfg .w1) [r.1] with loaded := r.2.1, cmdIdx := 7 }) ==
        some (true, r.2.2.1, r.1, 7, 7, 0, []) &&
      view statusWord (step { fresh (cfg .w1) [r.1] with loaded := r.2.1 }) == some r.2.2.2) = true := by decide +kernel

/-- The ID_CFG values of 95 section 2.7. -/
theorem test_id_cfg :
    idCfgWord (cfg .w1) = 0x33800 ∧ idCfgWord { cfg .w1 with variant := .v128 } = 0x33810 ∧
    idCfgWord { cfg .w1 with variant := .v256 } = 0x33820 ∧ idCfgWord { cfg .w1 with variant := .v512 } = 0x33830 ∧
    idCfgWord (cfg .w2) = 0x33841 ∧ idCfgWord (cfg .w4) = 0x33842 ∧ idCfgWord (cfg .w8) = 0x33843 := by decide

/-- R3's example. -/
theorem test_id_string : idString (cfg .w4) = "KPE1600-N4" := by decide

/-- R10, R133: what makes a configuration illegal, each reason once. -/
theorem test_legal :
    configLegal (cfg .w1) = true ∧ configLegal (cfg .w8) = true ∧ configLegal { cfg .w2 with variant := .scalar } = false ∧
    configLegal { cfg .w1 with variant := .batched, isaTarget := some .portableArray } = false ∧
    configLegal { cfg .w2 with isaTarget := none } = false ∧
    configLegal { cfg .w1 with variant := .v256, vectorBits := 128 } = false ∧
    configLegal { cfg .w1 with variant := .v256, vectorBits := 256 } = true ∧
    configLegal { cfg .w2 with respDepth := some 49 } = false ∧
    configLegal { cfg .w2 with respDepth := some 50 } = true := by decide

/-- The response hold of 95 section 2.7: EXTL waits on a full channel, and runs after one read. -/
theorem test_response_hold :
    let s := emit (List.replicate 25 0) { loaded (shallow .w1) zero [0x1000008] with cmdIdx := 2 }
    view (fun t => t.cmdIdx) (step s) = some 2 ∧
    view (fun t => (t.cmdIdx, respCount t)) (step (hostReadResponse s)) = some (3, 25) := by decide +kernel

/-- R51: a byte written after the header was appended is free for that command, and known for the next. -/
theorem test_race :
    let s := hostWriteByte 0x1002 9 (withBytes (loaded (cfg .w1) zero [0x1000006, 0x1000]))
    isRaced s 0x1002 = true ∧ isRaced s 0x1001 = false ∧ isRaced (consume 1 s) 0x1002 = true ∧
      isRaced (consume 2 s) 0x1002 = false ∧ hostByte (consume 2 s) 0x1002 0 = 9 := by decide +kernel

/-- R130: a region declared after the header was appended does not serve that command. -/
theorem test_late_declaration :
    let s := hostDeclare 0x5000 8 (loaded (cfg .w1) zero [0x1000006, 0x5000])
    view (fun _ => ()) (step s) = none ∧ admitted (consume 2 s) 0x5007 = true ∧ admitted (consume 2 s) 0x5008 = false := by
  decide +kernel

/-- R71, R72: a program text. -/
theorem test_assemble :
    assemble "xorl 0x16, 3 # absorb\n.dword 1, 0xFF,3\n\next1 24\nxor1 5".toList =
      some [0x3160007, 1, 0xFF, 3, 0x1180008, 0x1050007] ∧
    assemble "perm 32".toList = none ∧ assemble "perm 25".toList = some [0x1901] ∧
    assemble ".dword 5\ncmps\n.dword 1, 2".toList = some [5, 2, 1, 2] ∧
    assemble "ldst 1".toList = none ∧ assemble "PERM 1".toList = none := by decide +kernel

/-- R137: the end of a run of one command, and what is observed of it. -/
theorem test_end_of_run :
    view (fun t => (t.rptr, t.cmd, t.fault, (t.observe [5]).loaded, (t.observe [5]).responses))
      (step (loaded (cfg .w1) seq [0x1050008])) = some (1, [], false, true, [5, 5]) := by decide +kernel

/-! ## Witnesses of the statements -/

theorem witness_EncodeOfDecode : decode 0x1801 = .command (.perm 24) := by decide

theorem witness_StepRunsDecodedCommand :
    ∃ (s : State) (h : Word) (rest : List Word) (i : Instr), configLegal s.cfg = true ∧ s.fault = false ∧
      s.cmd = h :: rest ∧ decode h = .command i :=
  ⟨fresh (cfg .w2) [0x2000007, 1], 0x2000007, [1], .xorl 0 2, by decide⟩

/-- A failing check, and a command that runs. -/
theorem witness_StepFollowsCheckOrder :
    (let s := fresh (cfg .w4) [0x160005];
      configLegal s.cfg = true ∧ s.fault = false ∧ headerCheck s.cfg.width s.loaded 0x160005 = some .laneBound) ∧
    (let s := loaded (cfg .w4) zero [0x150005];
      configLegal s.cfg = true ∧ s.fault = false ∧ headerCheck s.cfg.width s.loaded 0x150005 = none) := by decide +kernel

/-- The ends of both ranges: OP 0x00, 0x09, 0xFF, and bits 13, 23 and 63 of defined opcodes 1 and 8. -/
theorem witness_ReservedEncodingsFault :
    (opField 0x0).toNat = 0 ∧ 9 ≤ (opField 0x9).toNat ∧ 9 ≤ (opField 0xFF).toNat ∧
    (1 ≤ (opField 0x2001).toNat ∧ (opField 0x2001).toNat ≤ 8 ∧ rsvA 0x2001 ≠ 0) ∧
    (1 ≤ (opField 0x800008).toNat ∧ (opField 0x800008).toNat ≤ 8 ∧ rsvB 0x800008 ≠ 0) ∧
    (1 ≤ (opField 0x8000000000000008).toNat ∧ (opField 0x8000000000000008).toNat ≤ 8 ∧ rsvC 0x8000000000000008 ≠ 0) ∧
    configLegal (fresh (cfg .w1) [0x9]).cfg = true ∧ (fresh (cfg .w1) [0x9]).fault = false := by decide

theorem witness_UnloadedCommandFaults :
    let s := fresh (cfg .w8) []
    Instr.wellFormed s.cfg.width (.ftrn 17) = true ∧ Instr.ftrn 17 ≠ .ldst ∧ s.loaded = false := by decide

/-- Each clause at its boundaries. -/
theorem witness_FieldRangeFaults :
    24 < (25 : Field).toNat ∧ 25 < (25 : Field).toNat + (fresh (cfg .w1) []).n ∧
    25 < (18 : Field).toNat + (fresh (cfg .w8) []).n ∧ (0 : Field).toNat < 1 ∧
    (1 ≤ (24 : Field).toNat ∧ (24 : Field).toNat ≤ 24 ∧ 25 < (2 : Field).toNat + (24 : Field).toNat) ∧
    25 < (26 : Field).toNat ∧
    (1 ≤ (1 : Field).toNat ∧ (1 : Field).toNat ≤ 25 ∧ 25 < (25 : Field).toNat + (1 : Field).toNat) := by decide

theorem witness_HaltedOrIdleKeepsState :
    (configLegal (fresh (cfg .w1) []).cfg = true ∧ (fresh (cfg .w1) []).cmd = []) ∧
    (let s := takeFault .illegalOpcode 0 (fresh (cfg .w1) [0]);
      configLegal s.cfg = true ∧ s.fault = true) := by decide

theorem witness_IllegalConfigurationRefused : configLegal { cfg .w1 with variant := .batched } = false := by decide

theorem witness_PayloadHold :
    let s := loaded (cfg .w2) zero [0x18010007, 5]
    configLegal s.cfg = true ∧ s.fault = false ∧ decode 0x18010007 = .command (.xorl 1 24) ∧
      headerCheck s.cfg.width s.loaded 0x18010007 = none ∧ [(5 : Word)].length < payloadWords s.cfg.width (.xorl 1 24) := by
  decide +kernel

theorem witness_ResponseHold :
    let s := emit [0] (loaded (shallow .w1) zero [4])
    configLegal s.cfg = true ∧ s.fault = false ∧ decode 4 = .command .stst ∧
      headerCheck s.cfg.width s.loaded 4 = none ∧ s.cfg.respDepth = some 25 ∧
      25 < s.resp.length + responseWords s.cfg.width .stst := by decide +kernel

/-- R = 0 and R = 24. -/
theorem witness_PermResult :
    ((loaded (cfg .w1) seq [0x1, 7]).hasCommand (.perm 0) [] [7] ∧ (loaded (cfg .w1) seq [0x1, 7]).canRun (.perm 0)) ∧
    ((loaded (cfg .w8) seq [0x1801]).hasCommand (.perm 24) [] [] ∧ (loaded (cfg .w8) seq [0x1801]).canRun (.perm 24)) := by
  unfold State.hasCommand State.canRun
  decide +kernel

/-- The equal comparison, and an unequal one with CMPS_EXACT true and false. -/
theorem witness_CmpsResult :
    (∀ e, (loaded { cfg .w1 with cmpsExact := e } zero (2 :: List.replicate 25 0)).hasCommand .cmps (List.replicate 25 0) [] ∧
      (loaded { cfg .w1 with cmpsExact := e } zero (2 :: List.replicate 25 0)).canRun .cmps) ∧
    (∀ k l, k < 1 → l < 25 →
      (loaded (cfg .w1) zero []).lane k l = instanceWord (List.replicate 25 0) 25 k l) ∧
    ¬ (∀ k l, k < 1 → l < 25 → (loaded (cfg .w1) seq []).lane k l = instanceWord (List.replicate 25 0) 25 k l) := by
  refine ⟨by unfold State.hasCommand State.canRun; decide +kernel, fun k l hk => ?_, fun h => ?_⟩
  · obtain rfl : k = 0 := by omega
    revert l
    decide +kernel
  · exact absurd (h 0 1 (by decide) (by decide)) (by decide +kernel)

theorem witness_LdstResult :
    (fresh (cfg .w2) (3 :: (List.replicate 50 0 ++ [9]))).hasCommand .ldst (List.replicate 50 0) [9] ∧
      (fresh (cfg .w2) (3 :: (List.replicate 50 0 ++ [9]))).canRun .ldst := by
  unfold State.hasCommand State.canRun
  decide +kernel

/-- With a finite response channel just large enough. -/
theorem witness_StstResult :
    (loaded (shallow .w2) seq [4]).hasCommand .stst [] [] ∧
      (loaded (shallow .w2) seq [4]).canRun .stst := by
  unfold State.hasCommand State.canRun
  decide +kernel

/-- The first and the last block at N = 8. -/
theorem witness_FtrnResult :
    ((loaded (cfg .w8) seq [0x5]).hasCommand (.ftrn 0) [] [] ∧ (loaded (cfg .w8) seq [0x5]).canRun (.ftrn 0)) ∧
    ((loaded (cfg .w8) seq [0x110005]).hasCommand (.ftrn 17) [] [] ∧
      (loaded (cfg .w8) seq [0x110005]).canRun (.ftrn 17)) := by
  unfold State.hasCommand State.canRun
  decide +kernel

/-- The last lane of an image. -/
theorem witness_LdxrResult :
    let s := withBytes (loaded (cfg .w1) seq [0x1180006, 0x1000])
    s.hasCommand (.ldxr 24 1) [0x1000] [] ∧ s.canRun (.ldxr 24 1) ∧
      ∀ k i b, k < 1 → i < 1 → b < 8 → admitted s ((([0x1000] : List Word).getD k 0).toNat +
        (if s.cfg.lxBase = .image then 8 * (24 + i) else 8 * i) + b) = true := by
  refine ⟨by unfold State.hasCommand; decide +kernel, by unfold State.canRun; decide +kernel, fun k i b hk hi => ?_⟩
  obtain rfl : k = 0 := by omega
  obtain rfl : i = 0 := by omega
  revert b
  decide +kernel

/-- One byte past the declared region. -/
theorem witness_LdxrStuckWithoutAdmission :
    let s := withBytes (loaded (cfg .w1) seq [0x1180006, 0x1001])
    (s.hasCommand (.ldxr 24 1) [0x1001] [] ∧ s.canRun (.ldxr 24 1)) ∧
      admitted s ((([0x1001] : List Word).getD 0 0).toNat +
        (if s.cfg.lxBase = .image then 8 * (24 + 0) else 8 * 0) + 7) = false := by
  unfold State.hasCommand State.canRun
  decide +kernel

/-- The widest block, and the last lane. -/
theorem witness_XorlResult :
    ((loaded (cfg .w1) seq (0x18010007 :: List.replicate 24 3)).hasCommand (.xorl 1 24) (List.replicate 24 3) [] ∧
      (loaded (cfg .w1) seq (0x18010007 :: List.replicate 24 3)).canRun (.xorl 1 24)) ∧
    ((loaded (cfg .w2) seq [0x1180007, 5, 6, 9]).hasCommand (.xorl 24 1) [5, 6] [9] ∧
      (loaded (cfg .w2) seq [0x1180007, 5, 6, 9]).canRun (.xorl 24 1)) := by
  unfold State.hasCommand State.canRun
  decide +kernel

/-- All lanes, and the last one. -/
theorem witness_ExtlResult :
    ((loaded (cfg .w2) seq [0x19000008]).hasCommand (.extl 0 25) [] [] ∧
      (loaded (cfg .w2) seq [0x19000008]).canRun (.extl 0 25)) ∧
    ((loaded (cfg .w1) seq [0x1180008]).hasCommand (.extl 24 1) [] [] ∧
      (loaded (cfg .w1) seq [0x1180008]).canRun (.extl 24 1)) := by
  unfold State.hasCommand State.canRun
  decide +kernel

/-- The bounds of ThetaRule, RhoPiRule, ChiRule, IotaRule, RhoGenerator, RoundConstantGenerator, ScheduleIsTheTail and
LittleEndianWord: their largest values. -/
theorem witness_bounds :
    4 < 5 ∧ ¬ (0 = 0 ∧ 4 = 0) ∧ 23 < 24 ∧ 63 < 64 ∧ 7 < 8 ∧
      (24, 4, 14) ∈ [(23, 19, 56), ((24, 4, 14) : Nat × Nat × Nat)] := by decide

theorem witness_PermutationIsInjective :
    ∃ a b : Canon, (24 : Nat) ≤ 24 ∧ a.length = 25 ∧ b.length = 25 ∧ keccakP a 24 = keccakP b 24 :=
  ⟨canonOf (seq 0), canonOf (seq 0), by decide, by simp, by simp, rfl⟩

theorem witness_BatchedEqualsScalar :
    VFile.shaped (loaded (cfg .w8) seq []).n (loaded (cfg .w8) seq []).v ∧ 7 < (loaded (cfg .w8) seq []).n ∧ 24 ≤ 24 := by
  decide +kernel

theorem witness_InterleaveInverse :
    ([canonOf (seq 0), canonOf (zero 0)].length = 2 ∧ ∀ a ∈ [canonOf (seq 0), canonOf (zero 0)], a.length = 25) ∧
      VFile.shaped 2 (vfileOf 2 seq) := by decide +kernel

theorem witness_LoadThenStoreRoundTrip :
    let s := fresh (shallow .w1) (3 :: (List.replicate 25 8 ++ [4]))
    configLegal s.cfg = true ∧ s.fault = false ∧ s.hasCommand .ldst (List.replicate 25 8) (encode .stst :: []) ∧
      hasRoom (25 * s.n) s = true := by
  unfold State.hasCommand
  decide +kernel

theorem witness_TransposeLaws :
    let s := loaded (cfg .w2) (fun k l => BitVec.ofNat 64 (100 * k + l)) [0x170005, 0x170005]
    (configLegal s.cfg = true ∧ s.fault = false ∧ s.hasCommand (.ftrn 23) [] [encode (.ftrn 23)] ∧
      s.canRun (.ftrn 23) ∧ VFile.shaped s.n s.v) ∧
    (∀ i k, i < s.n → k < s.n → elemAt s.v (23 + i) k = (fun i l => BitVec.ofNat 64 (100 * (l - 23) + 23 + i)) i (23 + k)) ∧
    (view (fun _ => ()) (exec (.ftrn 23) s)).isSome = true := by
  refine ⟨by unfold State.hasCommand State.canRun; decide +kernel, fun i k hi hk => ?_, by decide +kernel⟩
  change i < 2 at hi
  change k < 2 at hk
  interval_cases i <;> interval_cases k <;> decide +kernel

theorem witness_AbsorbTwiceRestores :
    let s := loaded (cfg .w2) seq [0x1180007, 5, 6, 0x1180007, 5, 6]
    configLegal s.cfg = true ∧ s.fault = false ∧ s.hasCommand (.xorl 24 1) [5, 6] (encode (.xorl 24 1) :: ([5, 6] ++ [])) ∧
      s.canRun (.xorl 24 1) ∧ VFile.shaped s.n s.v := by
  unfold State.hasCommand State.canRun
  decide +kernel

/-- T-X11. -/
theorem witness_AbsorbOfWordsEqualsAbsorbOfBytes :
    let s := withBytes (loaded (cfg .w1) seq [0x1000006, 0x1000])
    let s' := loaded (cfg .w1) seq [0x1000007, 0x0706050403020100]
    (s.hasCommand (.ldxr 0 1) [0x1000] [] ∧ s.canRun (.ldxr 0 1) ∧
      s'.hasCommand (.xorl 0 1) [0x0706050403020100] [] ∧ s'.canRun (.xorl 0 1) ∧ s'.cfg = s.cfg ∧ s'.v = s.v) ∧
    ∀ k i b, k < 1 → i < 1 → b < 8 →
      admitted s ((([0x1000] : List Word).getD k 0).toNat + (if s.cfg.lxBase = .image then 8 * (0 + i) else 8 * i) + b) = true ∧
      isRaced s ((([0x1000] : List Word).getD k 0).toNat + (if s.cfg.lxBase = .image then 8 * (0 + i) else 8 * i) + b) = false ∧
      s.mem.read ((([0x1000] : List Word).getD k 0).toNat + (if s.cfg.lxBase = .image then 8 * (0 + i) else 8 * i) + b) =
        some ((([0x0706050403020100] : List Word).getD (1 * k + i) 0).extractLsb' (8 * b) 8) := by
  refine ⟨by unfold State.hasCommand State.canRun; decide +kernel, fun k i b hk hi => ?_⟩
  obtain rfl : k = 0 := by omega
  obtain rfl : i = 0 := by omega
  revert b
  decide +kernel

theorem witness_ExtractAgreesWithStore :
    let s := loaded (cfg .w2) seq [0x19000008]
    let s' := loaded (cfg .w2) seq [4]
    s.hasCommand (.extl 0 25) [] [] ∧ s.canRun (.extl 0 25) ∧ s'.hasCommand .stst [] [] ∧ s'.canRun .stst ∧
      s'.cfg = s.cfg ∧ s'.v = s.v ∧ s'.resp = s.resp := by
  unfold State.hasCommand State.canRun
  decide +kernel

/-- With a command in the channel, whose words all precede the declaration. -/
theorem witness_AdmissionNeedsEarlierDeclaration :
    (view (fun t => t.readable) (hostAct (.declareReadable 0x5000 8) (fresh (cfg .w1) [0x1000006, 0x5000])) =
      some [{ base := 0x5000, size := 8, late := 2 }]) ∧
    0x5007 < 2 ^ 64 ∧ (0x5000 : Word).toNat ≤ 0x5007 ∧ 0x5007 < (0x5000 : Word).toNat + 8 ∧
      1 < (fresh (cfg .w1) [0x1000006, 0x5000]).cmd.length := by decide +kernel

theorem witness_WriteRacesWithPendingCommands :
    let s := withBytes (fresh (cfg .w1) [0x1000006, 0x1000])
    s.racesOk ∧ view (fun t => t.raced) (hostAct (.writeByte 0x1000 7) s) = some [(0x1000, 2)] ∧ 1 < s.cmd.length ∧
      0x1001 ≠ (0x1000 : Word).toNat := by decide +kernel

/-- A next state of step from a state that meets the invariant: an LDST that completes. It is the witness of
EngineNeverWritesMemory, CountersAdvanceByCommands, OnlyLdstSetsLoaded, VUnreadUntilLoaded and StepKeepsInvariant. -/
theorem witness_step :
    let s := fresh (cfg .w2) (3 :: List.replicate 50 6)
    s.Inv ∧ s.loaded = false ∧ view (fun t => (t.loaded, t.cmdIdx, t.rptr, t.cmd)) (step s) = some (true, 1, 51, []) :=
  ⟨⟨by decide +kernel, by decide +kernel, by decide +kernel, by decide +kernel, by decide +kernel, by decide +kernel,
    by decide +kernel⟩, by decide, by decide +kernel⟩

/-- A loaded engine that steps to a loaded one, and a Host move that is no reset, for OnlyLdstSetsLoaded. -/
theorem witness_OnlyLdstSetsLoaded :
    (loaded (cfg .w1) zero [1]).loaded = true ∧ view (fun t => t.loaded) (step (loaded (cfg .w1) zero [1])) = some true ∧
      HostMove.readResponse ≠ .reset ∧ view (fun t => t.loaded) (hostAct .readResponse State.reset) = some false := by
  decide +kernel

/-- A halted engine, and moves of both agents. -/
theorem witness_FaultIsSticky :
    let s := takeFault .illegalOpcode 9 (fresh (cfg .w1) [9])
    s.fault = true ∧ Move.host .reset ∉ [Move.host (.appendWord 3), .engine, .host .readResponse] ∧
      view (fun t => t.cmd) (runMoves [.host (.appendWord 3), .engine, .host .readResponse] s) = some [9, 3] := by
  decide +kernel

theorem witness_ReadPointerIsStreamPosition :
    Move.host .reset ∉ [Move.host (.appendWord 1), .engine] ∧
      view (fun t => (t.rptr, t.cmd)) (runMoves [.host (.appendWord 1), .engine] (loaded (cfg .w1) zero [])) =
        some (1, []) := by decide +kernel

theorem witness_VariantIsUnobservable :
    let s := loaded (cfg .w2) seq [4]
    let c := { cfg .w2 with isaTarget := some .x86v256, vectorBits := 512 }
    configLegal s.cfg = true ∧ configLegal c = true ∧ c.width = s.cfg.width ∧ c.respDepth = s.cfg.respDepth ∧
      c.lxBase = s.cfg.lxBase ∧ c.cmpsExact = s.cfg.cmpsExact ∧ (view (fun _ => ()) (step s)).isSome = true := by
  decide +kernel

/-- Another instance 0, the same instance 1. -/
theorem witness_InstancesDoNotMix :
    let s := loaded (cfg .w2) seq [0x101]
    let v := vfileOf 2 fun k l => if k = 0 then 77 else seq k l
    (∀ b, Instr.perm 1 ≠ .ftrn b) ∧ 1 < s.n ∧ (∀ l, l < 25 → elemAt v l 1 = s.lane 1 l) ∧
      (view (fun _ => ()) (exec (.perm 1) s)).isSome = true ∧
      (view (fun _ => ()) (exec (.perm 1) { s with v := v })).isSome = true :=
  ⟨fun _ => by simp, by decide, by decide +kernel, by decide +kernel, by decide +kernel⟩

/-- An LDXR with its bytes admitted. -/
theorem witness_UnheldCommandCompletes :
    let s := withBytes (loaded (cfg .w1) seq [0x1180006, 0x1000])
    configLegal s.cfg = true ∧ s.fault = false ∧ s.hasCommand (.ldxr 24 1) [0x1000] [] ∧ s.canRun (.ldxr 24 1) ∧
      ldxrAdmitted s [0x1000] 24 1 = true := by
  unfold State.hasCommand State.canRun
  decide +kernel

/-- A step that is stuck. -/
theorem witness_OnlyLdxrIsStuck :
    configLegal (loaded (cfg .w1) zero [0x1000006, 0]).cfg = true ∧
      step (loaded (cfg .w1) zero [0x1000006, 0]) = .fault .ldxrNotAdmitted := by
  refine ⟨by decide, ?_⟩
  rw [step_eq_exec (h := 0x1000006) (rest := [0]) (i := .ldxr 0 1) (by decide) (by decide) (by decide) (by decide),
    exec_of_canRun (payload := [0]) (rest := []) (by unfold State.hasCommand; decide) (by unfold State.canRun; decide)]
  have h : ldxrAdmitted (loaded (cfg .w1) zero [0x1000006, 0]) [0] (0 : Field).toNat (1 : Field).toNat = false := by decide +kernel
  exact if_neg (by rw [hasStep, h]; decide)

/-- Every width has a legal configuration: for ResetValues, HostResetRestores, ChannelsAreFifos, ResetMeetsInvariant. -/
theorem witness_legal : ∀ w, configLegal (cfg w) = true := by
  intro w
  cases w <;> decide

theorem witness_ChannelsAreFifos : (hostReadResponse { State.reset with resp := [4, 5] }).resp = [5] := by decide

/-- The first and the last reserved offset, and the last one a read may use. -/
theorem witness_CsrMap :
    0x30 ≤ (0x30 : BitVec 8).toNat ∧ 0x30 ≤ (0xFF : BitVec 8).toNat ∧ (0xF8 : BitVec 8).toNat % 8 = 0 := by decide

/-- The Host's moves keep the invariant from a state that meets it. -/
theorem witness_RunKeepsInvariant :
    State.reset.Inv ∧ (view (fun _ => ()) (hostAct (.writeByte 3 4) State.reset)).isSome = true ∧
      (view (fun _ => ()) (runMoves [.host (.writeByte 3 4), .engine] State.reset)).isSome = true :=
  ⟨⟨by decide +kernel, by decide +kernel, by decide +kernel, by decide +kernel, by decide +kernel, by decide +kernel,
    by decide +kernel⟩, by decide +kernel, by decide +kernel⟩

end Sys2Proof.Tests
end

/-! ## Scope: what the configuration decides (spec 00_scope R8, R10; 10_state R36; 40_permute R86) -/

namespace Sys2Proof.Machine

/-! ### What a step reads of the configuration -/

/-- The engine built with configuration c, in the same state otherwise. -/
def State.withCfg (c : Config) (s : State) : State := { s with cfg := c }

/-- An answer whose next state, if it has one, is that of the engine built with configuration c. -/
def answerWithCfg (c : Config) : Answer → Answer
  | .next t => .next (t.withCfg c)
  | .fault f => .fault f
  | .refused r => .refused r

/-- The parameters that commands read are the same: all but VARIANT, ISA_TARGET and the register width. -/
structure SameToCommands (c d : Config) : Prop where
  width : d.width = c.width
  respDepth : d.respDepth = c.respDepth
  lxBase : d.lxBase = c.lxBase
  cmpsExact : d.cmpsExact = c.cmpsExact

/-- Then d is c rebuilt with d's VARIANT, ISA_TARGET and register width. -/
theorem SameToCommands.eq_rebuilt {c d : Config} (h : SameToCommands c d) :
    d = { c with variant := d.variant, isaTarget := d.isaTarget, vectorBits := d.vectorBits } := by
  obtain ⟨hw, hr, hl, he⟩ := h
  rw [← hw, ← hr, ← hl, ← he]

section
variable {s : State} {c : Config} (h : SameToCommands s.cfg c)
include h

theorem hasRoom_withCfg (e : Nat) : hasRoom e (s.withCfg c) = hasRoom e s := by
  rw [h.eq_rebuilt]
  rfl

theorem hasStep_withCfg (i : Instr) (ws : List Word) : hasStep i (s.withCfg c) ws = hasStep i s ws := by
  rw [h.eq_rebuilt]
  cases i <;> rfl

theorem effectOf_withCfg (i : Instr) (ws : List Word) :
    effectOf i (s.withCfg c) ws = (effectOf i s ws).withCfg c := by
  rw [h.eq_rebuilt]
  cases i <;> rfl

theorem answerOf_withCfg (i : Instr) (ws : List Word) :
    answerOf i (s.withCfg c) ws = answerWithCfg c (answerOf i s ws) := by
  have hw : (s.withCfg c).cfg.width = s.cfg.width := h.width
  unfold answerOf
  rw [hasStep_withCfg h, effectOf_withCfg h, hw]
  cases hasStep i s ws <;> rfl

/-- If the effect does not depend on the configuration's other parameters, neither does starting it. -/
theorem start_withCfg (p e : Nat) {effect effect' : List Word → Answer}
    (heff : ∀ ws, effect' ws = answerWithCfg c (effect ws)) :
    start p e (s.withCfg c) effect' = answerWithCfg c (start p e s effect) := by
  have hcmd : (s.withCfg c).cmd = s.cmd := rfl
  unfold start
  rw [hasRoom_withCfg h, hcmd, heff]
  split
  · rfl
  · cases hasRoom e s <;> rfl

theorem exec_withCfg (i : Instr) : exec i (s.withCfg c) = answerWithCfg c (exec i s) := by
  have hw : (s.withCfg c).cfg.width = s.cfg.width := h.width
  have hl : (s.withCfg c).loaded = s.loaded := rfl
  rw [exec_eq, exec_eq, hw, hl]
  cases fieldFault s.cfg.width i with
  | some _ => rfl
  | none =>
    cases needsLoaded i && !s.loaded with
    | true => rfl
    | false => exact start_withCfg h _ _ (answerOf_withCfg h i)

/-- R36, R86: of two legal configurations that are the same to commands, the step is the same. -/
theorem step_withCfg (hs : configLegal s.cfg = true) (hc : configLegal c = true) :
    step (s.withCfg c) = answerWithCfg c (step s) := by
  have hf : fetch (s.withCfg c) = fetch s := by
    unfold fetch
    rw [hs, show configLegal (s.withCfg c).cfg = true from hc]
    rfl
  unfold step
  rw [hf]
  cases fetch s with
  | run i => exact exec_withCfg h i
  | illegal => rfl
  | halted => rfl
  | idle => rfl
  | reject _ _ => rfl

end

/-! ### Which configurations are legal -/

theorem variantFits_iff (w : Width) (v : Variant) : variantFits w v = true ↔ (v = .batched ↔ w ≠ .w1) := by
  cases w <;> cases v <;> decide

theorem isaTargetFits_iff (c : Config) : isaTargetFits c = true ↔ (c.isaTarget ≠ none ↔ c.variant = .batched) := by
  unfold isaTargetFits
  cases c.isaTarget <;> simp

theorem respDepthFits_iff (c : Config) :
    respDepthFits c = true ↔ ∀ d, c.respDepth = some d → 25 * c.width.n ≤ d := by
  unfold respDepthFits
  cases c.respDepth <;> simp

theorem configLegal_iff (c : Config) : configLegal c = true ↔
    (c.variant = .batched ↔ c.width ≠ .w1) ∧ (c.isaTarget ≠ none ↔ c.variant = .batched) ∧
      neededBits c ≤ c.vectorBits ∧ ∀ d, c.respDepth = some d → 25 * c.width.n ≤ d := by
  rw [← variantFits_iff, ← isaTargetFits_iff, ← respDepthFits_iff]
  simp [configLegal, and_assoc]

/-- An illegal configuration has no step (R10). -/
theorem step_of_illegal {s : State} (h : configLegal s.cfg = false) : step s = .refused .illegalConfiguration := by
  simp [step, fetch, h]

/-! ### The obligations -/

/-- Settles O49: a step reads only parameters that the two configurations share (`step_withCfg`). -/
theorem variantIsUnobservable : Obligations.VariantIsUnobservable := by
  intro s c hs hc hw hr hl he
  have hstep : step (s.withCfg c) = answerWithCfg c (step s) := step_withCfg ⟨hw, hr, hl, he⟩ hs hc
  refine ⟨fun t ht => ?_, fun f hf => ?_⟩
  · rw [ht] at hstep
    exact hstep
  · rw [hf] at hstep
    exact hstep

/-- Settles O6: the fetch of a running engine finds the decoded command (`step_eq_exec`). -/
theorem stepRunsDecodedCommand : Obligations.StepRunsDecodedCommand :=
  fun _ _ _ _ hc hf hcmd hd => step_eq_exec hc hf hcmd hd

/-- Settles O13: `configLegal_iff`, and the register width of each engine read off its VARIANT and ISA_TARGET. -/
theorem illegalConfigurationRefused : Obligations.IllegalConfigurationRefused := by
  refine ⟨fun c h => by simp [initialState, h], fun s h => step_of_illegal h, fun c => ?_⟩
  rw [configLegal_iff]
  obtain ⟨w, v, target, bits, depth, base, cmpsExact⟩ := c
  cases v with
  | batched =>
    cases target with
    | none => exact Iff.rfl
    | some target => cases target <;> exact Iff.rfl
  | scalar => exact Iff.rfl
  | v128 => exact Iff.rfl
  | v256 => exact Iff.rfl
  | v512 => exact Iff.rfl

end Sys2Proof.Machine

/-! ## Headers: a word that decodes to a command is that command's header (spec 30_encoding R56, R62) -/

namespace Sys2Proof

/-- A field's contribution to a header word: the header's own bits where the field lies. -/
theorem getLsbD_fieldInPlace (h : Word) (lo w i : Nat) :
    (decide (lo ≤ i) && (h.extractLsb' lo w).getLsbD (i - lo)) = (decide (lo ≤ i ∧ i < lo + w) && h.getLsbD i) := by
  by_cases hlo : lo ≤ i
  · have hlt : i - lo < w ↔ i < lo + w := by omega
    simp [hlo, hlt]
  · simp [hlo]

/-- A set bit of the header lies in no reserved field that is 0. -/
theorem not_mem_field_of_getLsbD {h : Word} {lo w i : Nat} (hz : h.extractLsb' lo w = 0) (hi : h.getLsbD i = true) :
    ¬ (lo ≤ i ∧ i < lo + w) := by
  intro hr
  have hbit := getLsbD_fieldInPlace h lo w i
  rw [hz, hi] at hbit
  simp [hr] at hbit

/-- A header whose reserved fields are 0 is put together from its own fields (R56). -/
theorem headerWord_of_fields {h : Word} {op : Opcode} (hop : opField h = op.code) (hA : rsvA h = 0) (hB : rsvB h = 0)
    (hC : rsvC h = 0) : headerWord op (roundsField h) (offsetField h) (lanesField h) = h := by
  refine BitVec.eq_of_getLsbD_eq fun i hi => ?_
  have hopBit : op.code.getLsbD i = (decide (i < 8) && h.getLsbD i) := by
    simp [← hop, opField]
  rw [getLsbD_headerWord _ _ _ _ hi, hopBit]
  simp only [roundsField, offsetField, lanesField, getLsbD_fieldInPlace]
  cases hbit : h.getLsbD i with
  | false => simp
  | true =>
    have h1 := not_mem_field_of_getLsbD hA hbit
    have h2 := not_mem_field_of_getLsbD hB hbit
    have h3 := not_mem_field_of_getLsbD hC hbit
    simp only [Bool.and_true, Bool.or_eq_true, decide_eq_true_eq]
    omega

/-- The opcode map is injective (R65). -/
theorem code_of_opcodeOf {b : BitVec 8} {op : Opcode} (h : opcodeOf b = some op) : b = op.code := by
  unfold opcodeOf at h
  split at h <;> cases h <;> exact BitVec.eq_of_toNat_eq ‹_›

theorem acceptIf_eq_command {ok : Bool} {i j : Instr} : acceptIf ok i = .command j ↔ ok = true ∧ i = j := by
  cases ok <;> simp [acceptIf]

/-- R62: a header word that decodes to a command is that command's one header. -/
theorem encode_eq_of_decode {h : Word} {i : Instr} (hd : decode h = .command i) : encode i = h := by
  unfold decode at hd
  cases hop : opcodeOf (opField h) with
  | none => simp [hop] at hd
  | some op =>
    have word := fun hA hB hC => headerWord_of_fields (code_of_opcodeOf hop) hA hB hC
    -- the decoder has found the reserved fields and those the command does not use to be 0, as `encode` writes them
    cases op <;>
      · simp only [hop, acceptIf_eq_command, Bool.and_eq_true, beq_iff_eq] at hd
        obtain ⟨hz, rfl⟩ := hd
        simp_all [encode]

end Sys2Proof

/-! ## What a step and a move of the Host leave, said once (spec 10_state R26, 60_exceptions R114, R115) -/

namespace Sys2Proof.Machine

theorem needsLoaded_eq_false_iff (i : Instr) : needsLoaded i = false ↔ i = .ldst := by
  cases i <;> simp [needsLoaded]

/-- All that the next state of a step can be. -/
inductive StepNext (s : State) : State → Prop
  /-- The engine is halted, idle or holding. -/
  | kept : StepNext s s
  /-- The engine takes a fault. -/
  | faulted (c : Cause) (h : Word) (running : s.fault = false) : StepNext s (takeFault c h s)
  /-- The command at the head of the channel completes. -/
  | completed {h : Word} {rest : List Word} {i : Instr} (ws : List Word) (running : s.fault = false)
      (hcmd : s.cmd = h :: rest) (hd : decode h = .command i) (hload : needsLoaded i = true → s.loaded = true)
      (hlen : 1 + payloadWords s.cfg.width i ≤ s.cmd.length) (hroom : hasRoom (responseWords s.cfg.width i) s = true) :
      StepNext s (complete (payloadWords s.cfg.width i) (effectOf i s ws))

theorem stepNext_of_step {s t : State} (hstep : step s = .next t) : StepNext s t := by
  rcases step_cases s with ⟨h, -⟩ | ⟨h, -⟩ | ⟨c, w, _, -, hf, h⟩ | ⟨w, rest, i, hcmd, hf, hd, h⟩ <;> rw [h] at hstep
  · cases hstep
  · cases hstep
    exact .kept
  · cases hstep
    exact .faulted c w hf
  · rcases exec_cases i s with ⟨c, h⟩ | h | ⟨h, -⟩ | ⟨ws, h, hload, hlen, hroom⟩ <;> rw [h] at hstep
    · cases hstep
      exact .faulted c _ hf
    · cases hstep
      exact .kept
    · cases hstep
    · cases hstep
      exact .completed ws hf hcmd hd hload hlen hroom

/-- The state a Host move leaves, where the Host has the move. -/
def hostEffect : HostMove → State → State
  | .appendWord w, s => hostAppend w s
  | .readResponse, s => hostReadResponse s
  | .readCsr _, s => s
  | .writeByte a b, s => hostWriteByte a b s
  | .declareReadable base size, s => hostDeclare base size s
  | .reset, s => resetEngine s

theorem eq_hostEffect_of_hostAct {m : HostMove} {s t : State} (h : hostAct m s = .next t) : t = hostEffect m s := by
  unfold hostAct at h
  split at h
  · cases m with
    | readCsr offset =>
      simp only at h
      split at h <;> cases h
      rfl
    | _ => cases h; rfl
  · cases h

/-- In a legal configuration the Host has every move but a CSR read between two registers (R136). -/
theorem hostAct_of_legal {m : HostMove} {s : State} (hc : configLegal s.cfg = true)
    (hm : ∀ offset, m = .readCsr offset → csrOffsetOk offset = true) : hostAct m s = .next (hostEffect m s) := by
  unfold hostAct
  rw [if_pos hc]
  cases m with
  | readCsr offset => exact if_pos (hm offset rfl)
  | _ => rfl

/-! ### Runs -/

theorem runMoves_cons_eq_next {m : Move} {ms : List Move} {s t : State} :
    runMoves (m :: ms) s = .next t ↔ ∃ u, applyMove m s = .next u ∧ runMoves ms u = .next t := by
  simp only [runMoves]
  cases applyMove m s <;> simp

/-- What each of the moves keeps, the run keeps. -/
theorem runMoves_keeps {P : State → Prop} {ms : List Move} {s t : State}
    (hkeep : ∀ m ∈ ms, ∀ u u', P u → applyMove m u = .next u' → P u') (hs : P s) (hrun : runMoves ms s = .next t) :
    P t := by
  induction ms generalizing s with
  | nil =>
    cases hrun
    exact hs
  | cons m ms ih =>
    obtain ⟨u, hu, hrun⟩ := runMoves_cons_eq_next.1 hrun
    exact ih (fun m' hm' => hkeep m' (List.mem_cons_of_mem _ hm')) (hkeep m List.mem_cons_self s u hs hu) hrun

/-! ## A halted engine (spec 10_state R28, 60_exceptions R115) -/

theorem eq_of_step_of_halted {s t : State} (hf : s.fault = true) (hstep : step s = .next t) : t = s := by
  cases stepNext_of_step hstep with
  | kept => rfl
  | faulted _ _ running => simp [hf] at running
  | completed _ running => simp [hf] at running

/-- t is halted and holds what s held, but for what the Host may still do to the channels and to its memory. -/
structure State.haltedSince (s t : State) : Prop where
  fault : t.fault = true
  fcause : t.fcause = s.fcause
  fcmd : t.fcmd = s.fcmd
  fidx : t.fidx = s.fidx
  v : t.v = s.v
  loaded : t.loaded = s.loaded
  cmdIdx : t.cmdIdx = s.cmdIdx
  rptr : t.rptr = s.rptr
  cmd : ∃ ws, t.cmd = s.cmd ++ ws
  resp : ∃ c, t.resp = s.resp.drop c

theorem haltedSince_refl {s : State} (hf : s.fault = true) : s.haltedSince s :=
  ⟨hf, rfl, rfl, rfl, rfl, rfl, rfl, rfl, ⟨[], by simp⟩, ⟨0, rfl⟩⟩

theorem haltedSince_hostEffect {s t : State} (h : s.haltedSince t) {m : HostMove} (hm : m ≠ .reset) :
    s.haltedSince (hostEffect m t) := by
  cases m with
  | reset => exact absurd rfl hm
  | appendWord w =>
    obtain ⟨ws, hcmd⟩ := h.cmd
    exact { h with cmd := ⟨ws ++ [w], by simp [hostEffect, hcmd]⟩ }
  | readResponse =>
    obtain ⟨c, hresp⟩ := h.resp
    exact { h with resp := ⟨c + 1, by simp [hostEffect, hresp]⟩ }
  | readCsr _ => exact h
  | writeByte _ _ => exact { h with }
  | declareReadable _ _ => exact { h with }

theorem haltedSince_applyMove {s t u : State} (h : s.haltedSince t) {m : Move} (hm : m ≠ .host .reset)
    (hu : applyMove m t = .next u) : s.haltedSince u := by
  cases m with
  | engine =>
    rw [eq_of_step_of_halted h.fault hu]
    exact h
  | host m =>
    rw [eq_hostEffect_of_hostAct hu]
    exact haltedSince_hostEffect h fun hr => hm (by rw [hr])

/-- Settles O46: every move but a reset keeps `State.haltedSince`. -/
theorem faultIsSticky : Obligations.FaultIsSticky := by
  intro ms s t hf hreset hrun
  have h : s.haltedSince t :=
    runMoves_keeps (fun m hm _ _ h hu => haltedSince_applyMove h (fun he => hreset (he ▸ hm)) hu) (haltedSince_refl hf) hrun
  exact ⟨h.fault, h.fcause, h.fcmd, h.fidx, h.v, h.loaded, h.cmdIdx, h.rptr, h.cmd, h.resp⟩

/-! ## The counters and the command stream (spec 10_state R24, R25, R29) -/

/-- Settles O44: a completed command is the only next state in which the counters move. -/
theorem countersAdvanceByCommands : Obligations.CountersAdvanceByCommands := by
  intro s t hstep
  cases stepNext_of_step hstep with
  | kept => exact .inl ⟨rfl, rfl, rfl⟩
  | faulted _ _ _ => exact .inl ⟨rfl, rfl, rfl⟩
  | @completed h rest i ws _ hcmd hd _ hlen _ =>
    have he := effectOf_effect i s ws
    exact .inr ⟨h, rest, i, hcmd, hd, by simp [he.cmdIdx], by simp [he.rptr], hlen, by simp [he.cmd]⟩

/-- From s to t the Host appended these words and the engine consumed the first words of the stream, RPTR counting them. -/
def State.streamedTo (s : State) (appended : List Word) (t : State) : Prop :=
  ∃ consumed : List Word, s.cmd ++ appended = consumed ++ t.cmd ∧ t.rptr = s.rptr + BitVec.ofNat 64 consumed.length

theorem streamedTo_of_same {s t : State} (hcmd : t.cmd = s.cmd) (hrptr : t.rptr = s.rptr) : s.streamedTo [] t :=
  ⟨[], by simp [hcmd], by simp [hrptr]⟩

theorem streamedTo_trans {s t u : State} {ws ws' : List Word} (h : s.streamedTo ws t) (h' : t.streamedTo ws' u) :
    s.streamedTo (ws ++ ws') u := by
  obtain ⟨c, hcmd, hrptr⟩ := h
  obtain ⟨c', hcmd', hrptr'⟩ := h'
  refine ⟨c ++ c', ?_, ?_⟩
  · rw [← List.append_assoc, hcmd, List.append_assoc, hcmd', List.append_assoc]
  · rw [hrptr', hrptr, List.length_append, BitVec.ofNat_add, BitVec.add_assoc]

theorem streamedTo_of_step {s t : State} (hstep : step s = .next t) : s.streamedTo [] t := by
  rcases countersAdvanceByCommands s t hstep with ⟨-, hrptr, hcmd⟩ | ⟨_, _, i, -, -, -, hrptr, hlen, hcmd⟩
  · exact streamedTo_of_same hcmd hrptr
  · refine ⟨s.cmd.take (1 + payloadWords s.cfg.width i), ?_, ?_⟩
    · rw [hcmd, List.take_append_drop, List.append_nil]
    · rw [hrptr, List.length_take_of_le hlen]

/-- The word a move appends to the command channel, if it appends one. -/
def appendedWord : Move → Option Word
  | .host (.appendWord w) => some w
  | _ => none

theorem streamedTo_of_applyMove {s t : State} {m : Move} (hm : m ≠ .host .reset) (h : applyMove m s = .next t) :
    s.streamedTo (appendedWord m).toList t := by
  cases m with
  | engine => exact streamedTo_of_step h
  | host m =>
    rw [eq_hostEffect_of_hostAct h]
    cases m with
    | appendWord w => exact ⟨[], rfl, by simp [hostEffect]⟩
    | reset => exact absurd rfl hm
    | _ => exact streamedTo_of_same rfl rfl

theorem streamedTo_of_runMoves {ms : List Move} {s t : State} (hreset : Move.host .reset ∉ ms)
    (hrun : runMoves ms s = .next t) : s.streamedTo (ms.filterMap appendedWord) t := by
  induction ms generalizing s with
  | nil =>
    cases hrun
    exact streamedTo_of_same rfl rfl
  | cons m ms ih =>
    obtain ⟨hm, hms⟩ : m ≠ .host .reset ∧ Move.host .reset ∉ ms := by simpa [eq_comm] using hreset
    obtain ⟨u, hu, hrun⟩ := runMoves_cons_eq_next.1 hrun
    have h := streamedTo_trans (streamedTo_of_applyMove hm hu) (ih hms hrun)
    cases hw : appendedWord m <;> simpa [hw] using h

/-- Settles O47: each move but a reset moves RPTR along the stream (`streamedTo_of_applyMove`), and so does the run. -/
theorem readPointerIsStreamPosition : Obligations.ReadPointerIsStreamPosition := by
  intro ms s t hreset hrun
  obtain ⟨consumed, hcmd, hrptr⟩ := streamedTo_of_runMoves hreset hrun
  exact ⟨consumed, hcmd, hrptr⟩

/-! ## LOADED, and V before it (spec 10_state R23) -/

/-- Settles O45: `complete` and the effects never clear LOADED, and the only command that runs without it is LDST. -/
theorem onlyLdstSetsLoaded : Obligations.OnlyLdstSetsLoaded := by
  refine ⟨fun s t hstep hl => ?_, fun s t hstep hl ht => ?_, fun m s t hm h => ?_⟩
  · cases stepNext_of_step hstep with
    | kept => exact hl
    | faulted _ _ _ => exact hl
    | @completed _ _ i ws => exact (effectOf_effect i s ws).loaded hl
  · cases stepNext_of_step hstep with
    | kept => simp [hl] at ht
    | faulted _ _ _ => simp [hl] at ht
    | @completed w rest i _ _ hcmd hd hload =>
      have hi : i = .ldst := (needsLoaded_eq_false_iff i).1 (by simpa [hl] using hload)
      exact ⟨rest, by rw [hcmd, ← hi, encode_eq_of_decode hd]⟩
  · rw [eq_hostEffect_of_hostAct h]
    cases m with
    | reset => exact absurd rfl hm
    | _ => rfl

/-- While LOADED = 0 every command but LDST faults: with its fields' cause, or else with NOT_LOADED (R112, R113). -/
theorem exec_of_unloaded {i : Instr} {s : State} (hi : i ≠ .ldst) (hl : s.loaded = false) :
    exec i s = .next (takeFault ((fieldFault s.cfg.width i).getD .notLoaded) (encode i) s) := by
  have hload : needsLoaded i = true := by
    simpa using mt (needsLoaded_eq_false_iff i).1 hi
  rw [exec_eq, hload, hl]
  cases fieldFault s.cfg.width i <;> rfl

/-- Settles O10: a well-formed command has no field fault (`exec_of_unloaded`). -/
theorem unloadedCommandFaults : Obligations.UnloadedCommandFaults := by
  intro s i hw hi hl
  rw [exec_of_unloaded hi hl, (fieldFault_eq_none_iff _ _).2 hw]
  rfl

/-- The same engine with register file v. -/
def State.withV (v : VFile) (s : State) : State := { s with v := v }

/-- LDST overwrites V: it holds, or its answer is the same whatever V was (R97). -/
theorem execLdst_withV (v : VFile) (s : State) :
    (execLdst s = .next s ∧ execLdst (s.withV v) = .next (s.withV v)) ∨ execLdst (s.withV v) = execLdst s := by
  have hcmd : (s.withV v).cmd = s.cmd := rfl
  have hroom : hasRoom 0 (s.withV v) = hasRoom 0 s := rfl
  have hn : (s.withV v).n = s.n := rfl
  unfold execLdst start
  rw [hcmd, hroom, hn]
  split
  · exact .inl ⟨rfl, rfl⟩
  · split
    · exact .inr rfl
    · exact .inl ⟨rfl, rfl⟩

/-- While LOADED = 0 a command's answer is the same whatever V is, or it is a next state that carries V along and has LOADED = 0
still. -/
theorem exec_withV_of_unloaded (i : Instr) (v : VFile) {s : State} (hl : s.loaded = false) :
    exec i (s.withV v) = exec i s ∨
      ∃ t, exec i s = .next t ∧ exec i (s.withV v) = .next (t.withV v) ∧ t.v = s.v ∧ t.loaded = false := by
  by_cases hi : i = .ldst
  · subst hi
    rcases execLdst_withV v s with ⟨h, h'⟩ | h
    · exact .inr ⟨s, h, h', rfl, hl⟩
    · exact .inl h
  · exact .inr ⟨_, exec_of_unloaded hi hl, exec_of_unloaded (s := s.withV v) hi hl, rfl, hl⟩

/-- The same of a step: fetching reads no V. -/
theorem step_withV_of_unloaded (v : VFile) {s : State} (hl : s.loaded = false) :
    step (s.withV v) = step s ∨
      ∃ t, step s = .next t ∧ step (s.withV v) = .next (t.withV v) ∧ t.v = s.v ∧ t.loaded = false := by
  have hfetch : fetch (s.withV v) = fetch s := rfl
  unfold step
  rw [hfetch]
  cases fetch s with
  | illegal => exact .inl rfl
  | halted => exact .inr ⟨s, rfl, rfl, rfl, hl⟩
  | idle => exact .inr ⟨s, rfl, rfl, rfl, hl⟩
  | reject c h => exact .inr ⟨takeFault c h s, rfl, rfl, rfl, hl⟩
  | run i => exact exec_withV_of_unloaded i v hl

/-- Settles O48: the step is the same whatever V is, or it carries V along unread (`step_withV_of_unloaded`). -/
theorem vUnreadUntilLoaded : Obligations.VUnreadUntilLoaded := by
  intro s t v hl hstep
  rcases step_withV_of_unloaded v hl with h | ⟨u, hu, h, hv, hu'⟩
  · exact ⟨t, h.trans hstep, rfl, fun _ => rfl⟩
  · obtain rfl : u = t := by simpa [hu] using hstep
    exact ⟨u.withV v, h, rfl, fun ht => by simp [hu'] at ht⟩

/-! ## The invariant (spec 10_state R19, R28, R30, 20_memory R40, 60_exceptions R112) -/

/-- Room for e more words, with the capacity named (R30). -/
theorem hasRoom_iff (e : Nat) (s : State) :
    hasRoom e s = true ↔ ∀ d, s.cfg.respDepth = some d → s.resp.length + e ≤ d := by
  unfold hasRoom
  cases s.cfg.respDepth <;> simp

theorem causeCode_defined (c : Cause) : 1 ≤ (causeCode c).toNat ∧ (causeCode c).toNat ≤ 6 := by
  cases c <;> decide

theorem mem_ageRaces {c : Nat} {m : List (Nat × Nat)} {p : Nat × Nat} (h : p ∈ ageRaces c m) :
    ∃ n, (p.1, n) ∈ m ∧ p.2 = n - c ∧ p.2 ≠ 0 := by
  obtain ⟨hmap, hne⟩ := List.mem_filter.1 h
  obtain ⟨q, hq, rfl⟩ := List.mem_map.1 hmap
  exact ⟨q.2, hq, rfl, by simpa using hne⟩

theorem racesOk_consume {s : State} (h : s.racesOk) (c : Nat) : (consume c s).racesOk := by
  obtain ⟨hrising, hmarks⟩ := h
  refine ⟨rising_ageRaces c _ hrising, fun p hp => ?_⟩
  obtain ⟨n, hn, hage, hne⟩ := mem_ageRaces hp
  obtain ⟨h1, h2, h3⟩ := hmarks _ hn
  simp only [consume_cmd, List.length_drop]
  omega

theorem regionsOk_consume {s : State} (h : s.regionsOk) (c : Nat) : (consume c s).regionsOk := by
  intro r hr
  obtain ⟨r', hr', rfl⟩ := List.mem_map.1 hr
  rw [consume_cmd, List.length_drop]
  exact Nat.sub_le_sub_right (h r' hr') c

theorem racesOk_hostWriteByte {s : State} (h : s.racesOk) (a : Word) (b : Byte) : (hostWriteByte a b s).racesOk := by
  obtain ⟨hrising, hmarks⟩ := h
  unfold State.racesOk
  rw [hostWriteByte_raced, hostWriteByte_cmd]
  unfold markRace
  split
  · exact ⟨rising_erase _ _ hrising, fun p hp => hmarks p (List.mem_filter.1 hp).1⟩
  · next hne =>
    refine ⟨rising_set _ _ _ hrising, fun p hp => ?_⟩
    rcases mem_sortedSet _ _ _ _ hp with rfl | hp
    · exact ⟨List.length_pos_iff.2 (by simpa using hne), le_rfl, a.isLt⟩
    · exact hmarks p hp

/-! ### The operations of the engine and the Host keep it -/

theorem inv_takeFault {s : State} (h : s.Inv) (c : Cause) (w : Word) : (takeFault c w s).Inv :=
  { h with record := by simpa [State.recordOk] using causeCode_defined c }

theorem inv_effect {e : Nat} {s u : State} (h : s.Inv) (hu : s.effect e u) (hroom : hasRoom e s = true) : u.Inv where
  legal := hu.fixed.cfg ▸ h.legal
  shape := by
    have hn : u.n = s.n := by rw [State.n, hu.fixed.cfg, State.n]
    exact hn ▸ hu.shape h.shape
  record := by
    unfold State.recordOk
    rw [hu.fixed.fault, hu.fixed.fcause, hu.fixed.fcmd, hu.fixed.fidx]
    exact h.record
  responses := by
    obtain ⟨ws, hlen, hresp⟩ := hu.resp
    have hbound := (hasRoom_iff e s).1 hroom
    refine (hasRoom_iff 0 u).2 fun d hd => ?_
    rw [hresp, List.length_append, hlen]
    exact hbound d (hu.fixed.cfg ▸ hd)
  memory := hu.memory ▸ h.memory
  races := by
    unfold State.racesOk
    rw [hu.raced, hu.cmd]
    exact h.races
  regions := by
    unfold State.regionsOk
    rw [hu.readable, hu.cmd]
    exact h.regions

theorem inv_complete {s : State} (h : s.Inv) (p : Nat) : (complete p s).Inv :=
  { h with
    races := racesOk_consume h.races (1 + p)
    regions := regionsOk_consume h.regions (1 + p) }

theorem inv_hostAppend {s : State} (h : s.Inv) (w : Word) : (hostAppend w s).Inv :=
  { h with
    races := ⟨h.races.1, fun p hp => by
      obtain ⟨h1, h2, h3⟩ := h.races.2 p hp
      exact ⟨h1, h2.trans (by simp), h3⟩⟩
    regions := fun r hr => (h.regions r hr).trans (by simp) }

theorem inv_hostReadResponse {s : State} (h : s.Inv) : (hostReadResponse s).Inv :=
  { h with
    responses := (hasRoom_iff 0 _).2 fun d hd => le_trans (by simp) ((hasRoom_iff 0 s).1 h.responses d hd) }

theorem inv_hostWriteByte {s : State} (h : s.Inv) (a : Word) (b : Byte) : (hostWriteByte a b s).Inv :=
  { h with
    memory := write_wf s.mem a b h.memory
    races := racesOk_hostWriteByte h.races a b }

theorem inv_hostDeclare {s : State} (h : s.Inv) (base : Word) (size : Nat) : (hostDeclare base size s).Inv :=
  { h with
    regions := fun r hr => by
      rcases List.mem_append.1 hr with hr | hr
      · exact h.regions r hr
      · rw [List.mem_singleton.1 hr]
        exact le_rfl }

theorem inv_resetOf {c : Config} (hc : configLegal c = true) : (State.resetOf c).Inv where
  legal := hc
  shape := ⟨List.length_replicate, fun r hr => by rw [List.eq_of_mem_replicate hr]; exact List.length_replicate⟩
  record := ⟨rfl, rfl, rfl⟩
  responses := (hasRoom_iff 0 _).2 fun d _ => Nat.zero_le d
  memory := resetOf_mem_wf c
  races := ⟨List.Pairwise.nil, fun _ hp => absurd hp List.not_mem_nil⟩
  regions := fun _ hr => absurd hr List.not_mem_nil

theorem inv_resetEngine {s : State} (h : s.Inv) : (resetEngine s).Inv :=
  { inv_resetOf h.legal with
    memory := h.memory
    regions := fun r hr => by
      obtain ⟨r', -, rfl⟩ := List.mem_map.1 hr
      exact Nat.zero_le _ }

theorem inv_hostEffect {s : State} (h : s.Inv) (m : HostMove) : (hostEffect m s).Inv := by
  cases m with
  | appendWord w => exact inv_hostAppend h w
  | readResponse => exact inv_hostReadResponse h
  | readCsr _ => exact h
  | writeByte a b => exact inv_hostWriteByte h a b
  | declareReadable base size => exact inv_hostDeclare h base size
  | reset => exact inv_resetEngine h

/-- Settles O59: a next state is kept, faulted or completed, and each keeps the invariant. -/
theorem stepKeepsInvariant : Obligations.StepKeepsInvariant := by
  intro s t h hstep
  cases stepNext_of_step hstep with
  | kept => exact h
  | faulted c w _ => exact inv_takeFault h c w
  | @completed _ _ i ws _ _ _ _ _ hroom => exact inv_complete (inv_effect h (effectOf_effect i s ws) hroom) _

/-- Settles O60: by `inv_hostEffect` and O59, over the run. -/
theorem runKeepsInvariant : Obligations.RunKeepsInvariant := by
  have host : ∀ (m : HostMove) (s t : State), s.Inv → hostAct m s = .next t → t.Inv := fun m s t h hact => by
    rw [eq_hostEffect_of_hostAct hact]
    exact inv_hostEffect h m
  refine ⟨host, fun ms s t h hrun => runMoves_keeps (fun m _ u u' hu hmove => ?_) h hrun⟩
  cases m with
  | engine => exact stepKeepsInvariant u u' hu hmove
  | host m => exact host m u u' hu hmove

/-- Settles O58: `inv_resetOf`, and the model's own configuration is legal. -/
theorem resetMeetsInvariant : Obligations.ResetMeetsInvariant :=
  ⟨fun _ hc => inv_resetOf hc, inv_resetOf (by decide)⟩

/-! ## Reset, the channels and the CSR block as the Host sees them (spec 10_state R29 to R34, R38) -/

/-- STATUS after reset: IDLE alone is set (R38). -/
theorem statusWord_resetOf (c : Config) : statusWord (State.resetOf c) = 0x4 := by
  simp [statusWord, flagWord, isIdle, State.resetOf]

/-- Settles O53: the fields of `State.resetOf`, and `statusWord_resetOf`. -/
theorem resetValues : Obligations.ResetValues := fun c hc =>
  ⟨State.resetOf c, if_pos hc, rfl, rfl, rfl, rfl, rfl, rfl, rfl, rfl, rfl, rfl, statusWord_resetOf c, rfl⟩

/-- Settles O54: the fields of `resetEngine`. -/
theorem hostResetRestores : Obligations.HostResetRestores := fun s hc =>
  ⟨resetEngine s, hostAct_of_legal hc nofun, rfl, rfl, rfl, rfl, rfl, rfl, rfl, rfl, rfl, rfl, rfl, fun _ => rfl⟩

theorem hostReadResponse_eq_of_drop {s : State} {rest : List Word} (h : s.resp.drop 1 = rest) :
    hostReadResponse s = { s with resp := rest } := by
  rw [hostReadResponse, h]

/-- Settles O55: every such move is the Host's (`hostAct_of_legal`). -/
theorem channelsAreFifos : Obligations.ChannelsAreFifos := by
  intro s hc
  have hread : hostAct .readResponse s = .next (hostReadResponse s) := hostAct_of_legal hc nofun
  refine ⟨fun w => hostAct_of_legal hc nofun, fun w rest hresp => ?_, fun hresp => ?_⟩
  · rw [hread, hostReadResponse_eq_of_drop (rest := rest) (by simp [hresp])]
    exact ⟨rfl, by simp [hostSees, hresp]⟩
  · rw [hread, hostReadResponse_eq_of_drop (rest := s.resp) (by simp [hresp])]
    exact ⟨rfl, by simp [hostSees, hresp]⟩

/-- Settles O57: an offset that is a multiple of 8 is one the Host may read at. -/
theorem csrReadHasNoSideEffect : Obligations.CsrReadHasNoSideEffect := by
  intro s offset hc h8
  have hok : csrOffsetOk offset = true := by simp [csrOffsetOk, h8]
  refine ⟨hostAct_of_legal hc fun o ho => ?_, if_pos hok⟩
  cases ho
  exact hok

/-- ID_CFG's fields (R32): LOG2N, VARIANT, the greatest ROUNDS, the lane count, and the reserved bits. -/
theorem idCfgWord_fields (c : Config) :
    ((idCfgWord c).extractLsb' 0 4).toNat = widthLog2 c.width ∧
      ((idCfgWord c).extractLsb' 4 4).toNat = (variantCode c.variant).toNat ∧
      (idCfgWord c).extractLsb' 8 5 = 24 ∧ (idCfgWord c).extractLsb' 13 5 = 25 ∧ (idCfgWord c).extractLsb' 18 46 = 0 := by
  unfold idCfgWord
  generalize c.width = w
  generalize c.variant = v
  cases w <;> cases v <;> exact ⟨rfl, rfl, rfl, rfl, rfl⟩

theorem two_pow_widthLog2 (w : Width) : 2 ^ widthLog2 w = w.n := by cases w <;> rfl

/-- A flag of STATUS stands at its bit alone. -/
theorem getLsbD_flagWord_shiftLeft (b : Bool) {k i : Nat} (hi : i < 64) :
    (flagWord b <<< k).getLsbD i = (decide (i = k) && b) := by
  have hsub : k ≤ i → (i - k = 0 ↔ i = k) := by omega
  by_cases hk : k ≤ i
  · cases b <;> simp [flagWord, hi, hsub hk, Nat.not_lt.2 hk]
  · cases b <;> simp [flagWord, hi, Nat.lt_of_not_le hk, show i ≠ k by omega]

/-- STATUS bit by bit (R33). -/
theorem getLsbD_statusWord (s : State) {i : Nat} (hi : i < 64) :
    (statusWord s).getLsbD i =
      ((decide (i = 0) && s.fault) || (decide (i = 1) && s.loaded) || (decide (i = 2) && isIdle s) ||
        (decide (4 ≤ i) && s.fcause.getLsbD (i - 4))) := by
  have h0 := getLsbD_flagWord_shiftLeft s.fault (k := 0) hi
  rw [BitVec.shiftLeft_zero] at h0
  simp only [statusWord, BitVec.getLsbD_or, h0, getLsbD_flagWord_shiftLeft _ hi]
  by_cases h4 : 4 ≤ i
  · simp [hi, h4, Nat.not_lt.2 h4]
  · simp [h4, Nat.lt_of_not_le h4]

/-- FCAUSE of STATUS (R33). -/
theorem statusWord_fcause (s : State) : (statusWord s).extractLsb' 4 4 = s.fcause := by
  refine BitVec.eq_of_getLsbD_eq fun i hi => ?_
  rw [BitVec.getLsbD_extractLsb', getLsbD_statusWord s (by omega)]
  simp [hi, show ¬ 4 + i = 1 by omega, show ¬ 4 + i = 2 by omega]

/-- STATUS bits [63:8] are reserved (R33). -/
theorem statusWord_reserved (s : State) : (statusWord s).extractLsb' 8 56 = 0 := by
  refine BitVec.eq_of_getLsbD_eq fun i hi => ?_
  rw [BitVec.getLsbD_extractLsb', getLsbD_statusWord s (by omega)]
  simp [show ¬ 8 + i = 1 by omega, show ¬ 8 + i = 2 by omega, BitVec.getLsbD_of_ge s.fcause (8 + i - 4) (by omega)]

/-- The reserved offsets (R31). -/
theorem csrValue_reserved (s : State) {offset : BitVec 8} (h : 0x30 ≤ offset.toNat) : csrValue s offset = 0 := by
  unfold csrValue
  split
  case h_7 => rfl
  all_goals omega

/-- Settles O56: `idCfgWord_fields`, and STATUS bit by bit (`getLsbD_statusWord`). -/
theorem csrMap : Obligations.CsrMap := by
  intro s
  obtain ⟨hlog, hvariant, hrounds, hlanes, hzero⟩ := idCfgWord_fields s.cfg
  refine ⟨?_, ?_, hrounds, hlanes, hzero, ?_, ?_, ?_, ?_, statusWord_fcause s, statusWord_reserved s, rfl, rfl, rfl, rfl,
    fun _ h => csrValue_reserved s h⟩
  · exact (congrArg (2 ^ ·) hlog).trans (two_pow_widthLog2 _)
  · refine hvariant.trans ?_
    cases s.cfg.variant <;> rfl
  · exact (getLsbD_statusWord s (by decide)).trans (by simp)
  · exact (getLsbD_statusWord s (by decide)).trans (by simp)
  · rw [show (csrValue s 0x08).getLsbD 2 = isIdle s from (getLsbD_statusWord s (by decide)).trans (by simp)]
    exact List.isEmpty_iff
  · exact (getLsbD_statusWord s (by decide)).trans (by simp)

end Sys2Proof.Machine

/-! ## Host memory: words, admission, races, and what LDXR reads of it (spec 20_memory R40 to R51, 42_transpose R102, R104) -/

namespace Sys2Proof.Machine

/-! ### Words of eight bytes (R42) -/

/-- A byte put at place b of a word sets bits of that place alone. -/
theorem getLsbD_byteInPlace (x : Byte) (b : Nat) {j : Nat} (hj : j < 64) :
    (x.setWidth 64 <<< (8 * b)).getLsbD j = (decide (j / 8 = b) && x.getLsbD (j % 8)) := by
  rw [BitVec.getLsbD_shiftLeft, BitVec.getLsbD_setWidth]
  rcases lt_trichotomy (j / 8) b with hlt | rfl | hgt
  · simp [hlt.ne, show j < 8 * b by omega]
  · have hsub : j - 8 * (j / 8) = j % 8 := by omega
    simp [hj, hsub, show ¬ j < 8 * (j / 8) by omega, show j % 8 < 64 by omega]
  · simp [hgt.ne', BitVec.getLsbD_of_ge x (j - 8 * b) (by omega)]

/-- Bit j of an assembled word is bit j mod 8 of byte number j / 8. -/
theorem getLsbD_le64 (f : Nat → Byte) {j : Nat} (hj : j < 64) : (le64 f).getLsbD j = (f (j / 8)).getLsbD (j % 8) := by
  have place := fun b => getLsbD_byteInPlace (f b) b hj
  have h0 := place 0
  rw [Nat.mul_zero, BitVec.shiftLeft_zero] at h0
  simp only [le64, BitVec.getLsbD_or, h0, place 1, place 2, place 3, place 4, place 5, place 6, place 7]
  have hbyte : j / 8 < 8 := by omega
  generalize j / 8 = q at hbyte ⊢
  interval_cases q <;> simp

/-- Settles O40: `getLsbD_le64` at each bit of the byte. -/
theorem littleEndianWord : Obligations.LittleEndianWord := by
  intro f i hi
  refine BitVec.eq_of_getLsbD_eq fun j hj => ?_
  rw [BitVec.getLsbD_extractLsb', getLsbD_le64 f (by omega), show (8 * i + j) / 8 = i by omega,
    show (8 * i + j) % 8 = j by omega]
  simp [hj]

/-- The word assembled of a word's own bytes is that word. -/
theorem le64_eq_of_bytes {f : Nat → Byte} {w : Word} (h : ∀ b, b < 8 → f b = w.extractLsb' (8 * b) 8) : le64 f = w := by
  refine BitVec.eq_of_getLsbD_eq fun j hj => ?_
  rw [getLsbD_le64 f hj, h _ (by omega), BitVec.getLsbD_extractLsb', Nat.div_add_mod]
  simp [Nat.mod_lt]

/-! ### Declarations (R41, R45, R130) -/

/-- The region counts for the header at the head of the channel, and the address lies in it. -/
def Region.admits (r : Region) (a : Nat) : Prop := r.late = 0 ∧ r.base.toNat ≤ a ∧ a < r.base.toNat + r.size

theorem admitted_iff (s : State) (a : Nat) : admitted s a = true ↔ a < 2 ^ 64 ∧ ∃ r ∈ s.readable, r.admits a := by
  simp [admitted, Region.admits, and_assoc]

/-- After c words are consumed, a region counts that was late by no more than c. -/
theorem admitted_consume_iff (c : Nat) (s : State) (a : Nat) :
    admitted (consume c s) a = true ↔ a < 2 ^ 64 ∧ ∃ r ∈ s.readable, (ageRegion c r).admits a := by
  simp [admitted_iff]

theorem admits_ageRegion_iff (c : Nat) (r : Region) (a : Nat) :
    (ageRegion c r).admits a ↔ r.late ≤ c ∧ r.base.toNat ≤ a ∧ a < r.base.toNat + r.size := by
  simp [Region.admits, ageRegion, Nat.sub_eq_zero_iff_le]

/-- Settles O41: a new region is late by the channel's length, so that it counts once that many words are consumed
(`admits_ageRegion_iff`) and not before. -/
theorem admissionNeedsEarlierDeclaration : Obligations.AdmissionNeedsEarlierDeclaration := by
  refine ⟨admitted_iff, fun s t base size a hact => ?_⟩
  obtain rfl : t = hostDeclare base size s := eq_hostEffect_of_hostAct hact
  refine ⟨fun ha hlo hhi => ?_, fun c hc => ?_⟩
  · exact (admitted_consume_iff _ _ a).2 ⟨ha, { base := base, size := size, late := s.cmd.length }, by simp,
      (admits_ageRegion_iff _ _ a).2 ⟨le_rfl, hlo, hhi⟩⟩
  · have hnew : ¬ (ageRegion c { base := base, size := size, late := s.cmd.length }).admits a := fun h =>
      Nat.not_le.2 hc ((admits_ageRegion_iff _ _ a).1 h).1
    rw [Bool.eq_iff_iff, admitted_consume_iff, admitted_consume_iff, hostDeclare_readable]
    simp [or_and_right, exists_or, hnew]

/-! ### Races (R50, R51) -/

/-- After c words are consumed, a mark of more than c words stands. -/
theorem isRaced_consume_iff {s : State} (h : s.racesOk) (c a : Nat) :
    isRaced (consume c s) a = true ↔ ∃ n, sortedGet s.raced a = some n ∧ c < n := by
  have hget := sortedGet_ageRaces c s.raced h.1 a
  rw [isRaced, consume_raced, hget]
  cases sortedGet s.raced a with
  | none => simp
  | some n =>
    by_cases hn : n ≤ c
    · simp [Nat.sub_eq_zero_of_le hn, hn]
    · simp [Nat.sub_ne_zero_of_lt (Nat.lt_of_not_le hn), Nat.lt_of_not_le hn]

/-- The mark a write leaves on its own byte counts the words in the channel; with none there it leaves no mark. -/
theorem sortedGet_markRace_self (a : Word) (s : State) :
    sortedGet (markRace a s) a.toNat = if s.cmd.isEmpty then none else some s.cmd.length := by
  unfold markRace
  split
  · exact (sortedGet_erase _ _ _).trans (if_pos rfl)
  · exact (sortedGet_set _ _ _ _).trans (if_pos rfl)

/-- A write leaves the marks of other bytes. -/
theorem sortedGet_markRace_of_ne {a : Word} {a' : Nat} (h : a' ≠ a.toNat) (s : State) :
    sortedGet (markRace a s) a' = sortedGet s.raced a' := by
  unfold markRace
  split
  · exact (sortedGet_erase _ _ _).trans (if_neg h.symm)
  · exact (sortedGet_set _ _ _ _).trans (if_neg h.symm)

/-- R51: the byte written races for the commands that were in the channel at the write, and for those alone. -/
theorem isRaced_consume_hostWriteByte_iff {s : State} (h : s.racesOk) (a : Word) (b : Byte) (c : Nat) :
    isRaced (consume c (hostWriteByte a b s)) a.toNat = true ↔ c < s.cmd.length := by
  rw [isRaced_consume_iff (racesOk_hostWriteByte h a b), hostWriteByte_raced, sortedGet_markRace_self]
  cases s.cmd <;> simp

theorem hostByte_of_raced {s : State} {a : Nat} (h : isRaced s a = true) (d : Nat) : hostByte s a d = Config.freeByte d :=
  if_pos h

/-- A byte that is written and does not race is read as written. -/
theorem hostByte_of_read {s : State} {a : Nat} {b : Byte} (h : isRaced s a = false) (hread : s.mem.read a = some b)
    (d : Nat) : hostByte s a d = b := by
  simp [hostByte, h, hread]

/-- Settles O42: `isRaced_consume_hostWriteByte_iff` for the byte written, `sortedGet_markRace_of_ne` for the others. -/
theorem writeRacesWithPendingCommands : Obligations.WriteRacesWithPendingCommands := by
  intro s t a b hraces hact
  obtain rfl : t = hostWriteByte a b s := eq_hostEffect_of_hostAct hact
  have race := isRaced_consume_hostWriteByte_iff hraces a b
  have settled : isRaced (consume s.cmd.length (hostWriteByte a b s)) a.toNat = false := by
    rw [Bool.eq_false_iff, ne_eq, race]
    exact Nat.lt_irrefl _
  refine ⟨fun c hc => (race c).2 hc, settled, fun d => hostByte_of_read settled ?_ d,
    fun c d hc => hostByte_of_raced ((race c).2 hc) d, fun a' c ha => ⟨?_, ?_⟩⟩
  · exact (read_write _ _ _ _).trans (if_pos rfl)
  · rw [Bool.eq_iff_iff, isRaced_consume_iff (racesOk_hostWriteByte hraces a b), isRaced_consume_iff hraces,
      hostWriteByte_raced, sortedGet_markRace_of_ne ha]
  · exact (read_write _ _ _ _).trans (if_neg ha.symm)

/-! ### LDXR (R45, R102 to R104) -/

/-- The address of a word of LDXR under either reading of LX_BASE (R103). -/
theorem ldxrAddr_eq (base : LxBase) (ptr : Word) (o i : Nat) :
    ldxrAddr base ptr o i = ptr.toNat + if base = .image then 8 * (o + i) else 8 * i := by
  cases base <;> rfl

theorem ldxrAdmitted_iff (s : State) (ptrs : List Word) (o l : Nat) :
    ldxrAdmitted s ptrs o l = true ↔ ∀ k i b, k < s.n → i < l → b < 8 →
      admitted s ((ptrs.getD k 0).toNat + (if s.cfg.lxBase = .image then 8 * (o + i) else 8 * i) + b) = true := by
  simp only [ldxrAdmitted, List.all_eq_true, List.mem_range, ldxrAddr_eq]
  exact ⟨fun h k i b hk hi hb => h k hk i hi b hb, fun h k hk i hi b hb => h k i b hk hi hb⟩

/-- An LDXR that can run completes, its bytes admitted (R102). -/
theorem exec_ldxr_of_admitted {s : State} {o l : Field} {ptrs rest : List Word} (hc : s.hasCommand (.ldxr o l) ptrs rest)
    (hr : s.canRun (.ldxr o l)) (ha : ldxrAdmitted s ptrs o.toNat l.toNat = true) :
    exec (.ldxr o l) s = .next (complete s.n (effectOf (.ldxr o l) s ptrs)) :=
  (exec_of_canRun hc hr).trans (if_pos ha)

/-- Settles O22: one byte that is not admitted denies `ldxrAdmitted`. -/
theorem ldxrStuckWithoutAdmission : Obligations.LdxrStuckWithoutAdmission := by
  intro s o l ptrs rest k i b hcmd hrun hk hi hb hno
  refine (exec_of_canRun hcmd hrun).trans (if_neg fun hall => ?_)
  have hyes := (ldxrAdmitted_iff s ptrs o.toNat l.toNat).1 hall k i b hk hi hb
  rw [hno] at hyes
  cases hyes

/-- An LDXR reads the word whose bytes stand, written and not racing, at its addresses. -/
theorem ldxrWord_eq_of_bytes {s : State} {ptrs : List Word} {o l k i : Nat} {w : Word}
    (h : ∀ b, b < 8 →
      isRaced s ((ptrs.getD k 0).toNat + (if s.cfg.lxBase = .image then 8 * (o + i) else 8 * i) + b) = false ∧
      s.mem.read ((ptrs.getD k 0).toNat + (if s.cfg.lxBase = .image then 8 * (o + i) else 8 * i) + b) =
        some (w.extractLsb' (8 * b) 8)) :
    ldxrWord s ptrs o l k i = w := by
  unfold ldxrWord le64At
  rw [ldxrAddr_eq]
  refine le64_eq_of_bytes fun b hb => ?_
  obtain ⟨hraced, hread⟩ := h b hb
  exact hostByte_of_read hraced hread _

/-- Absorbing the same words into the same lanes leaves the same V (R102, R106). -/
theorem v_xorBlock_congr {s s' : State} {o l : Nat} {w w' : Nat → Nat → Word} (hcfg : s'.cfg = s.cfg) (hv : s'.v = s.v)
    (hw : ∀ k i, k < s.n → i < l → w k i = w' k i) : (xorBlock o l w s).v = (xorBlock o l w' s').v := by
  have hn : s'.n = s.n := congrArg (fun c => c.width.n) hcfg
  have hlane : ∀ k x, s'.lane k x = s.lane k x := fun k x => congrArg (fun v => elemAt v x k) hv
  simp only [xorBlock, State.setLanes, hn, hlane]
  refine vfileOf_congr fun k x hk _ => ?_
  split
  · next hin => rw [hw k (x - o) hk (by omega)]
  · rfl

/-- Settles O38: both commands complete, and the words LDXR reads are XORL's (`ldxrWord_eq_of_bytes`). -/
theorem absorbOfWordsEqualsAbsorbOfBytes : Obligations.AbsorbOfWordsEqualsAbsorbOfBytes := by
  intro s s' o l ptrs ws rest rest' hcmd hrun hcmd' hrun' hcfg hv hbytes
  have hadm : ldxrAdmitted s ptrs o.toNat l.toNat = true :=
    (ldxrAdmitted_iff ..).2 fun k i b hk hi hb => (hbytes k i b hk hi hb).1
  have hwords : ∀ k i, k < s.n → i < l.toNat → ldxrWord s ptrs o.toNat l.toNat k i = instanceWord ws l.toNat k i :=
    fun k i hk hi => ldxrWord_eq_of_bytes fun b hb => (hbytes k i b hk hi hb).2
  exact ⟨_, _, exec_ldxr_of_admitted hcmd hrun hadm, (exec_of_canRun hcmd' hrun').trans (if_pos rfl),
    v_xorBlock_congr hcfg hv hwords⟩

/-! ### Every step (R40, R45, R46, R116) -/

/-- Settles O43: neither a fault nor a completed command writes host memory. -/
theorem engineNeverWritesMemory : Obligations.EngineNeverWritesMemory := by
  intro s t hstep a
  cases stepNext_of_step hstep with
  | kept => rfl
  | faulted _ _ _ => rfl
  | @completed _ _ i ws => exact (effectOf_effect i s ws).fixed.mem a

/-- The one command with an answer that is no next state is an LDXR of a loaded engine (R116). -/
theorem exec_not_next {i : Instr} {s : State} (h : ∀ t, exec i s ≠ .next t) :
    exec i s = .fault .ldxrNotAdmitted ∧ s.loaded = true ∧ ∃ o l, i = .ldxr o l := by
  rcases exec_cases i s with ⟨_, hn⟩ | hn | hstuck | ⟨_, hn, -⟩
  · exact absurd hn (h _)
  · exact absurd hn (h _)
  · exact hstuck
  · exact absurd hn (h _)

/-- A step that answers no next state is refused for its configuration, or is that of a stuck LDXR (R10, R116). -/
theorem step_not_next {s : State} (h : ∀ t, step s ≠ .next t) :
    (step s = .refused .illegalConfiguration ∧ configLegal s.cfg = false) ∨
      (step s = .fault .ldxrNotAdmitted ∧ s.fault = false ∧ s.loaded = true ∧
        ∃ w rest o l, s.cmd = w :: rest ∧ decode w = .command (.ldxr o l)) := by
  rcases step_cases s with hillegal | ⟨hn, -⟩ | ⟨_, _, _, -, -, hn⟩ | ⟨w, rest, i, hcmd, hf, hd, hexec⟩
  · exact .inl hillegal
  · exact absurd hn (h _)
  · exact absurd hn (h _)
  · rw [hexec] at h ⊢
    obtain ⟨hstuck, hl, o, l, rfl⟩ := exec_not_next h
    exact .inr ⟨hstuck, hf, hl, w, rest, o, l, hcmd, hd⟩

/-- Settles O52: `step_not_next`, read for a fault and for a refusal. -/
theorem onlyLdxrIsStuck : Obligations.OnlyLdxrIsStuck := by
  refine ⟨fun s f hstep => ?_, fun s hc r hstep => ?_⟩
  · rcases step_not_next (s := s) (by simp [hstep]) with ⟨h, -⟩ | ⟨-, hf, hl, w, rest, o, l, hcmd, hd⟩
    · simp [hstep] at h
    · exact ⟨w, rest, o, l, hcmd, hd, hf, hl⟩
  · rcases step_not_next (s := s) (by simp [hstep]) with ⟨-, hillegal⟩ | ⟨h, -⟩
    · simp [hc] at hillegal
    · simp [hstep] at h

end Sys2Proof.Machine

/-! ## Encoding: the decoder and the encoder, the faults of illegal headers, the assembly language (spec 30_encoding R56 to R73) -/

namespace Sys2Proof

/-! ### Headers of commands (R56, R57, R62, R65) -/

/-- R56, R62: the decoder reads back the fields that `encode` writes, and finds 0 in every field it wants to be 0. -/
theorem decode_encode (i : Instr) : decode (encode i) = .command i := by
  -- every field read back is the one written; the tests for 0 then compare 0 with 0
  cases i <;>
    simp [encode, decode, opField_headerWord, opcodeOf_code, roundsField_headerWord, offsetField_headerWord,
      lanesField_headerWord, rsvA_headerWord, rsvB_headerWord, rsvC_headerWord, acceptIf]

/-- The reserved opcodes are 0x00 and those from 0x09 on (R65). -/
theorem opcodeOf_eq_none_iff (b : BitVec 8) : opcodeOf b = none ↔ b.toNat = 0 ∨ 9 ≤ b.toNat := by
  unfold opcodeOf
  split <;> simp_all
  omega

/-- A reserved opcode is rejected whatever the other bits are (R65). -/
theorem decode_of_reserved_opcode {h : Word} (hop : opcodeOf (opField h) = none) : decode h = .reject .illegalOpcode := by
  simp [decode, hop]

/-- A set reserved bit makes every defined opcode's header illegal (R61). -/
theorem decode_of_reserved_bit {h : Word} {op : Opcode} (hop : opcodeOf (opField h) = some op)
    (hrsv : rsvA h ≠ 0 ∨ rsvB h ≠ 0 ∨ rsvC h ≠ 0) : decode h = .reject .reservedField := by
  have hbits : (rsvA h == 0 && rsvB h == 0 && rsvC h == 0) = false := by
    simpa [or_assoc, imp_iff_not_or] using hrsv
  cases op <;> simp only [decode, hop, hbits, Bool.false_and] <;> rfl

end Sys2Proof

namespace Sys2Proof.Machine

/-- Settles O1, by the decoder's reading of an encoded word's fields (`decode_encode`). -/
theorem decodeOfEncode : Obligations.DecodeOfEncode := decode_encode

/-- Settles O2 (`encode_eq_of_decode`). -/
theorem encodeOfDecode : Obligations.EncodeOfDecode := fun _ _ => encode_eq_of_decode

/-! ### The faults of illegal headers and of field values (R61, R64, R65, R113, R114) -/

/-- A running engine's step on a head word that is no command: the fault of the decoder's rejection (R113, R114). -/
theorem step_of_reject {s : State} {h : Word} {rest : List Word} {r : Reject} (hc : configLegal s.cfg = true)
    (hf : s.fault = false) (hcmd : s.cmd = h :: rest) (hd : decode h = .reject r) :
    step s = .next (takeFault (rejectCause r) h s) := by
  simp [step, fetch, fetchHead, hc, hf, hcmd, hd]

/-- Settles O9: the decoder rejects both kinds of header, each by its name, and the step takes the rejection's fault. -/
theorem reservedEncodingsFault : Obligations.ReservedEncodingsFault := by
  intro s h rest hc hf hcmd
  refine ⟨fun hop => ?_, fun hlo hhi hrsv => ?_⟩
  · exact step_of_reject hc hf hcmd (decode_of_reserved_opcode ((opcodeOf_eq_none_iff _).2 hop))
  · cases hop : opcodeOf (opField h) with
    | none =>
      have hreserved := (opcodeOf_eq_none_iff _).1 hop
      omega
    | some op => exact step_of_reject hc hf hcmd (decode_of_reserved_bit hop hrsv)

/-- A command whose own fields are at fault takes that fault before LOADED is looked at (R113). -/
theorem exec_of_fieldFault {i : Instr} {s : State} {c : Cause} (h : fieldFault s.cfg.width i = some c) :
    exec i s = .next (takeFault c (encode i) s) := by
  rw [exec_eq, h]
  rfl

section
variable {n : Width} {r o l : Field}

theorem fieldFault_perm (h : 24 < r.toNat) : fieldFault n (.perm r) = some .roundsRange := by
  simp [fieldFault, roundsOk, h]

theorem fieldFault_ftrn (h : 25 < o.toNat + n.n) : fieldFault n (.ftrn o) = some .laneBound := by
  simp [fieldFault, blockFits, h]

/-- LDXR and XORL have the same field check (R64). -/
theorem fieldFault_ldxr : fieldFault n (.ldxr o l) = fieldFault n (.xorl o l) := rfl

theorem fieldFault_xorl_lanes (h : l.toNat < 1 ∨ 24 < l.toNat) : fieldFault n (.xorl o l) = some .lanesRange := by
  have hl : absorbLanesOk l = false := by
    simp only [absorbLanesOk, decide_eq_false_iff_not]
    omega
  simp [fieldFault, hl]

theorem fieldFault_xorl_bound (h1 : 1 ≤ l.toNat) (h24 : l.toNat ≤ 24) (h : 25 < o.toNat + l.toNat) :
    fieldFault n (.xorl o l) = some .laneBound := by
  simp [fieldFault, absorbLanesOk, blockFits, h1, h24, h]

theorem fieldFault_extl_lanes (h : l.toNat < 1 ∨ 25 < l.toNat) : fieldFault n (.extl o l) = some .lanesRange := by
  have hl : extractLanesOk l = false := by
    simp only [extractLanesOk, decide_eq_false_iff_not]
    omega
  simp [fieldFault, hl]

theorem fieldFault_extl_bound (h1 : 1 ≤ l.toNat) (h25 : l.toNat ≤ 25) (h : 25 < o.toNat + l.toNat) :
    fieldFault n (.extl o l) = some .laneBound := by
  simp [fieldFault, extractLanesOk, blockFits, h1, h25, h]

end

/-- Settles O11: each clause is one line of R64's table, which is the command's field fault (`exec_of_fieldFault`). -/
theorem fieldRangeFaults : Obligations.FieldRangeFaults := by
  refine ⟨fun s r h => ?_, fun s o h => ?_, fun s o l h => ⟨?_, ?_⟩, fun s o l h1 h24 h => ⟨?_, ?_⟩, fun s o l h => ?_,
    fun s o l h1 h25 h => ?_⟩ <;> apply exec_of_fieldFault
  · exact fieldFault_perm h
  · exact fieldFault_ftrn h
  · exact fieldFault_ldxr.trans (fieldFault_xorl_lanes h)
  · exact fieldFault_xorl_lanes h
  · exact fieldFault_ldxr.trans (fieldFault_xorl_bound h1 h24 h)
  · exact fieldFault_xorl_bound h1 h24 h
  · exact fieldFault_extl_lanes h
  · exact fieldFault_extl_bound h1 h25 h

/-! ### Common forms and pseudo-instructions (R72, R73) -/

/-- Settles O3: each word of R73's table is decoded. -/
theorem commonHeaderWords : Obligations.CommonHeaderWords := by
  unfold Obligations.CommonHeaderWords
  decide

/-- Settles O4: each line of R73's table is assembled. -/
theorem commonAssemblyLines : Obligations.CommonAssemblyLines := by
  unfold Obligations.CommonAssemblyLines
  decide

/-- Settles O5: an operand over 31 is refused on both sides, and any other gives the same fields. -/
theorem pseudoInstructionsExpand : Obligations.PseudoInstructionsExpand := by
  refine ⟨rfl, fun o => ?_, fun o => ?_, fun l => rfl⟩
  · simp only [asmCommand]
    cases asmField o <;> rfl
  · simp only [asmCommand]
    cases asmField o <;> rfl

end Sys2Proof.Machine

/-! ## Commands and the lanes of V (spec 40_permute R84, R85; 42_transpose R100) -/

namespace Sys2Proof.Machine

/-! ### A command on two engines that differ in V alone (R85, R100) -/

/-- What a command does before it starts reads no V: it answers a next state that carries V along, or it starts on the same
payload (R113). -/
theorem exec_withV (i : Instr) (v : VFile) (s : State) :
    (∃ u, exec i s = .next u ∧ u.v = s.v ∧ exec i (s.withV v) = .next (u.withV v)) ∨
      ∃ ws, exec i s = answerOf i s ws ∧ exec i (s.withV v) = answerOf i (s.withV v) ws := by
  have hcfg : (s.withV v).cfg = s.cfg := rfl
  have hloaded : (s.withV v).loaded = s.loaded := rfl
  rw [exec_eq, exec_eq, hcfg, hloaded]
  cases fieldFault s.cfg.width i with
  | some c => exact .inl ⟨takeFault c (encode i) s, rfl, rfl, rfl⟩
  | none =>
    cases needsLoaded i && !s.loaded with
    | true => exact .inl ⟨takeFault .notLoaded (encode i) s, rfl, rfl, rfl⟩
    | false =>
      have hcmd : (s.withV v).cmd = s.cmd := rfl
      have hroom : ∀ e, hasRoom e (s.withV v) = hasRoom e s := fun _ => rfl
      simp only [Bool.false_eq_true, if_false, start, hcmd, hroom]
      split
      · exact .inl ⟨s, rfl, rfl, rfl⟩
      · split
        · exact .inr ⟨_, rfl, rfl⟩
        · exact .inl ⟨s, rfl, rfl, rfl⟩

/-- The only next state of a command that has started is its effect, completed. -/
theorem eq_of_answerOf_eq_next {i : Instr} {s t : State} {ws : List Word} (h : answerOf i s ws = .next t) :
    t = complete (payloadWords s.cfg.width i) (effectOf i s ws) := by
  unfold answerOf at h
  split at h <;> cases h
  rfl

/-- The effect of a command but FTRN on the lanes of S_k is the same whatever the other states in V are. -/
theorem lane_effectOf_withV {i : Instr} (hi : ∀ b, i ≠ .ftrn b) {s : State} {v : VFile} {k l : Nat} (hk : k < s.n)
    (hv : ∀ l, l < 25 → (s.withV v).lane k l = s.lane k l) (ws : List Word) (hl : l < 25) :
    (effectOf i (s.withV v) ws).lane k l = (effectOf i s ws).lane k l := by
  have hk' : k < (s.withV v).n := hk
  cases i with
  | perm r =>
    have hcanon : (s.withV v).canonical k = s.canonical k := canonOf_congr hv
    simp only [effectOf]
    rw [lane_permuteAll _ _ hk' hl, lane_permuteAll _ _ hk hl, hcanon]
  | ftrn b => exact absurd rfl (hi b)
  | ldst => rfl
  | cmps => exact hv l hl
  | stst => exact hv l hl
  | extl o c => exact hv l hl
  | xorl o c =>
    simp only [effectOf]
    rw [lane_xorBlock _ _ _ _ hk' hl, lane_xorBlock _ _ _ _ hk hl, hv l hl]
  | ldxr o c =>
    simp only [effectOf, advanceDraws_lane]
    rw [lane_xorBlock _ _ _ _ hk' hl, lane_xorBlock _ _ _ _ hk hl, hv l hl]
    rfl

/-- Settles O50: a command carries V along or has its effect (`exec_withV`), and but for FTRN the effect on S_k reads no
other state of V (`lane_effectOf_withV`). -/
theorem instancesDoNotMix : Obligations.InstancesDoNotMix := by
  intro i s t t' v k hi hk hv ht ht' l hl
  change exec i (s.withV v) = .next t' at ht'
  rcases exec_withV i v s with ⟨u, hu, huv, hu'⟩ | ⟨ws, h, h'⟩
  · obtain rfl : u = t := by simpa [hu] using ht
    obtain rfl : u.withV v = t' := by simpa [hu'] using ht'
    exact (hv l hl).trans (congrArg (fun v => elemAt v l k) huv).symm
  · obtain rfl := eq_of_answerOf_eq_next (h.symm.trans ht)
    obtain rfl := eq_of_answerOf_eq_next (h'.symm.trans ht')
    rw [complete_lane, complete_lane]
    exact lane_effectOf_withV hi hk hv ws hl

/-- Settles O16: PERM completes (`complete_retired`), and its effect on a lane is `lane_permuteAll`. -/
theorem permResult : Obligations.PermResult := by
  intro s r rest hcmd hrun
  have he : s.effect 0 (permuteAll r.toNat s) := effectOf_effect (.perm r) s []
  exact ⟨complete 0 (permuteAll r.toNat s), (exec_of_canRun hcmd hrun).trans (if_pos rfl),
    complete_retired he.fixed he.cmd he.rptr he.cmdIdx he.readable he.raced, by simp [he.cmd, hcmd.1],
    fun _ _ => lane_permuteAll r.toNat s, rfl, rfl, rfl⟩

end Sys2Proof.Machine

/-! ## The round function (spec 40_permute R74 to R81) -/

namespace Sys2Proof.Machine

/-! ### Lanes by their coordinates (R12) -/

theorem laneIdx_mod {x : Nat} (y : Nat) (hx : x < 5) : laneIdx x y % 5 = x := by
  unfold laneIdx
  omega

theorem laneIdx_div {x : Nat} (y : Nat) (hx : x < 5) : laneIdx x y / 5 = y := by
  unfold laneIdx
  omega

theorem laneIdx_lt {x y : Nat} (hx : x < 5) (hy : y < 5) : laneIdx x y < 25 := by
  unfold laneIdx
  omega

theorem laneIdx_mod_div (l : Nat) : laneIdx (l % 5) (l / 5) = l := by
  unfold laneIdx
  omega

theorem laneXY_canonOf {f : Nat → Word} {x y : Nat} (hx : x < 5) (hy : y < 5) :
    laneXY (canonOf f) x y = f (laneIdx x y) :=
  laneAt_canonOf (laneIdx_lt hx hy)

/-- Two canonical states with the same lanes are equal. -/
theorem canon_ext {a b : Canon} (ha : a.length = 25) (hb : b.length = 25)
    (h : ∀ x y, x < 5 → y < 5 → laneXY a x y = laneXY b x y) : a = b := by
  rw [← canonOf_laneAt a ha, ← canonOf_laneAt b hb]
  refine canonOf_congr fun l hl => ?_
  have hlane := h (l % 5) (l / 5) (by omega) (by omega)
  rwa [laneXY, laneXY, laneIdx_mod_div] at hlane

/-! ### The four transforms, lane by lane (R75 to R79) -/

section
variable {x y : Nat} (a : Canon) (hx : x < 5) (hy : y < 5)
include hx hy

theorem laneXY_theta : laneXY (theta a) x y = laneXY a x y ^^^ thetaEffect a x := by
  unfold theta
  rw [laneXY_canonOf hx hy, laneIdx_mod y hx]
  rfl

/-- Rho and pi, by destination (R76). -/
theorem laneXY_rhoPi : laneXY (rhoPi a) x y = rotl64 (laneXY a (piSourceX x y) x) (rho (piSourceX x y) x) := by
  unfold rhoPi
  rw [laneXY_canonOf hx hy]
  simp only [laneIdx_mod y hx, laneIdx_div y hx]

/-- Rho and pi, by source (R76). -/
theorem laneXY_rhoPi_dest : laneXY (rhoPi a) y ((2 * x + 3 * y) % 5) = rotl64 (laneXY a x y) (rho x y) := by
  have hsource : piSourceX y ((2 * x + 3 * y) % 5) = x := by
    unfold piSourceX
    omega
  rw [laneXY_rhoPi a hy (Nat.mod_lt _ (by decide)), hsource]

theorem laneXY_chi :
    laneXY (chi a) x y = laneXY a x y ^^^ (~~~ laneXY a ((x + 1) % 5) y &&& laneXY a ((x + 2) % 5) y) := by
  unfold chi
  rw [laneXY_canonOf hx hy]
  simp only [laneIdx_mod y hx, laneIdx_div y hx]

theorem laneXY_iota (i : Nat) :
    laneXY (iota a i) x y = if x = 0 ∧ y = 0 then laneXY a 0 0 ^^^ roundConstant i else laneXY a x y := by
  have hzero : laneIdx x y = 0 ↔ x = 0 ∧ y = 0 := by
    unfold laneIdx
    omega
  unfold iota
  rw [laneXY_canonOf hx hy]
  simp only [hzero]
  rfl

end

/-- Rho and pi, by the linear index of the destination (R76). -/
theorem laneAt_rhoPi (a : Canon) {l : Nat} (hl : l < 25) :
    laneAt (rhoPi a) l =
      rotl64 (laneAt a (laneIdx (piSourceX (l % 5) (l / 5)) (l % 5))) (rho (piSourceX (l % 5) (l / 5)) (l % 5)) :=
  laneAt_canonOf hl

/-- Settles O25: `laneXY_theta`. -/
theorem thetaRule : Obligations.ThetaRule :=
  fun a _ _ hx hy => laneXY_theta a hx hy

/-- Settles O26: by source, by destination, and the table's rows are the lanes of `laneAt_rhoPi`. -/
theorem rhoPiRule : Obligations.RhoPiRule := by
  refine ⟨fun a x y hx hy => laneXY_rhoPi_dest a hx hy, fun a x y hx hy => laneXY_rhoPi a hx hy, fun a m hm => ?_⟩
  have hrow : m.2.1 < 25 ∧ laneIdx (piSourceX (m.2.1 % 5) (m.2.1 / 5)) (m.2.1 % 5) = m.1 ∧
      rho (piSourceX (m.2.1 % 5) (m.2.1 / 5)) (m.2.1 % 5) = m.2.2 := by
    revert m
    decide
  obtain ⟨hdest, hsource, hoffset⟩ := hrow
  rw [laneAt_rhoPi a hdest, hsource, hoffset]

/-- Settles O28: `laneXY_chi`. -/
theorem chiRule : Obligations.ChiRule :=
  fun a _ _ hx hy => laneXY_chi a hx hy

/-- Settles O29: `laneXY_iota`, at lane (0, 0) and elsewhere. -/
theorem iotaRule : Obligations.IotaRule := by
  refine fun a i => ⟨?_, fun x y hx hy hne => ?_⟩
  · rw [laneXY_iota a (by decide) (by decide), if_pos ⟨rfl, rfl⟩]
  · rw [laneXY_iota a hx hy, if_neg hne]

/-! ### The tables and their generators (R77, R80) -/

theorem rho_lt {x y : Nat} (hx : x < 5) (hy : y < 5) : rho x y < 64 := by
  have table : ∀ x < 5, ∀ y < 5, rho x y < 64 := by decide
  exact table x hx y hy

/-- Settles O27: the 25 offsets are computed along the generator's orbit, and are in range by `rho_lt`. -/
theorem rhoGenerator : Obligations.RhoGenerator :=
  ⟨by decide, by decide, by decide, fun _ _ => rho_lt⟩

/-- Settles O30: the 24 constants are computed, and the LFSR is run to the seven bits of each; no other bit has the form
2^j - 1. -/
theorem roundConstantGenerator : Obligations.RoundConstantGenerator := by
  refine ⟨by decide, fun i b hi hb => ?_⟩
  revert b
  revert i
  decide

/-! ### The schedule (R81) -/

/-- Settles O31: the first of R + 1 rounds is split off the list of round indices. -/
theorem scheduleIsTheTail : Obligations.ScheduleIsTheTail := by
  refine ⟨fun _ => rfl, fun a r hr => ?_⟩
  have hfirst : 24 - (r + 1) + 0 = 23 - r := by omega
  have hlater : ∀ j, 24 - (r + 1) + (j + 1) = 24 - r + j := by omega
  simp only [keccakP, List.range_succ_eq_map, List.foldl_cons, List.foldl_map, hfirst, hlater]

end Sys2Proof.Machine

/-! ## KeccakP is injective (spec 40_permute R83) -/

namespace Sys2Proof.Machine

/-! ### Bits of rotated words (R13) -/

theorem getLsbD_rotl64 (v : Word) {n i : Nat} (hn : n < 64) (hi : i < 64) :
    (rotl64 v n).getLsbD i = v.getLsbD ((i + (64 - n)) % 64) := by
  unfold rotl64
  split
  · next h0 =>
    have hbit : (i + (64 - n)) % 64 = i := by omega
    rw [hbit]
  · rw [BitVec.getLsbD_or, BitVec.getLsbD_shiftLeft, BitVec.getLsbD_ushiftRight]
    by_cases hin : i < n
    · have hbit : (i + (64 - n)) % 64 = 64 - n + i := by omega
      simp [hin, hbit]
    · have hbit : (i + (64 - n)) % 64 = i - n := by omega
      have hout : v.getLsbD (64 - n + i) = false := BitVec.getLsbD_of_ge v _ (by omega)
      simp [hin, hbit, hout, hi]

theorem rotl64_injective {v w : Word} {n : Nat} (hn : n < 64) (h : rotl64 v n = rotl64 w n) : v = w := by
  refine BitVec.eq_of_getLsbD_eq fun i hi => ?_
  have hback : ((i + n) % 64 + (64 - n)) % 64 = i := by omega
  have hbit := congrArg (BitVec.getLsbD · ((i + n) % 64)) h
  rwa [getLsbD_rotl64 v hn (Nat.mod_lt _ (by decide)), getLsbD_rotl64 w hn (Nat.mod_lt _ (by decide)), hback] at hbit

/-! ### Theta: the column parities can be recovered, and so the lanes (R75)

Theta maps the parities C to C[x] + C[x-1] + rotl64(C[x+1], 1), a linear map; so it is enough that it has no kernel. -/

/-- Every bit is the sum of the bit a columns before it, and the bit a columns after it and b places lower. -/
def SumOfNeighbours (a : Fin 5) (b : Fin 64) (c : Fin 5 → Fin 64 → Bool) : Prop :=
  ∀ x i, c x i = (c (x - a) i ^^ c (x + a) (i - b))

/-- The square of the map: its two mixed terms cancel. -/
theorem SumOfNeighbours.double {a : Fin 5} {b : Fin 64} {c : Fin 5 → Fin 64 → Bool} (h : SumOfNeighbours a b c) :
    SumOfNeighbours (a + a) (b + b) c := fun x i => by
  rw [h x i, h (x - a) i, h (x + a) (i - b), sub_add_cancel, add_sub_cancel_right, sub_sub, sub_sub, add_assoc]
  simp

/-- The bits of a row, each the sum of its two neighbours, are 0. -/
theorem row_eq_zero_of_sumOfNeighbours :
    ∀ p : Fin 5 → Bool, (∀ x, p x = (p (x - 4) ^^ p (x + 4))) → ∀ x, p x = false := by decide

/-- After six doublings the rotation is by 64 places and is gone. -/
theorem eq_zero_of_sumOfNeighbours {c : Fin 5 → Fin 64 → Bool} (h : SumOfNeighbours 1 1 c) (x : Fin 5) (i : Fin 64) :
    c x i = false := by
  have h64 : SumOfNeighbours 4 0 c := h.double.double.double.double.double.double
  refine row_eq_zero_of_sumOfNeighbours (fun x => c x i) (fun x => ?_) x
  rw [h64 x i, sub_zero]

/-- Where the column parities of a and b differ. -/
def parityDiff (a b : Canon) (x : Fin 5) (i : Fin 64) : Bool :=
  (columnParity a x).getLsbD i ^^ (columnParity b x).getLsbD i

theorem columnParity_theta (a : Canon) {x : Nat} (hx : x < 5) :
    columnParity (theta a) x = columnParity a x ^^^ thetaEffect a x := by
  unfold columnParity
  rw [laneXY_theta a hx (by decide), laneXY_theta a hx (by decide), laneXY_theta a hx (by decide),
    laneXY_theta a hx (by decide), laneXY_theta a hx (by decide)]
  refine BitVec.eq_of_getLsbD_eq fun i _ => ?_
  simp only [BitVec.getLsbD_xor]
  cases (thetaEffect a x).getLsbD i <;> simp

theorem getLsbD_thetaEffect (a : Canon) (x : Fin 5) (i : Fin 64) :
    (thetaEffect a x).getLsbD i =
      ((columnParity a ↑(x - 1)).getLsbD i ^^ (columnParity a ↑(x + 1)).getLsbD ↑(i - 1)) := by
  have hbefore : ((x - 1 : Fin 5) : Nat) = (x + 4) % 5 := by omega
  have hafter : ((x + 1 : Fin 5) : Nat) = (x + 1) % 5 := by omega
  have hlower : ((i - 1 : Fin 64) : Nat) = (i + (64 - 1)) % 64 := by omega
  rw [hbefore, hafter, hlower, thetaEffect, BitVec.getLsbD_xor, getLsbD_rotl64 _ (by decide) i.isLt]

theorem sumOfNeighbours_parityDiff {a b : Canon} (h : theta a = theta b) :
    SumOfNeighbours 1 1 (parityDiff a b) := fun x i => by
  have hparity : columnParity a x ^^^ thetaEffect a x = columnParity b x ^^^ thetaEffect b x := by
    rw [← columnParity_theta a x.isLt, ← columnParity_theta b x.isLt, h]
  have hbit := congrArg (BitVec.getLsbD · i) hparity
  simp only [BitVec.getLsbD_xor, getLsbD_thetaEffect] at hbit
  have linear : ∀ p q r p' q' r' : Bool,
      (p ^^ (q ^^ r)) = (p' ^^ (q' ^^ r')) → (p ^^ p') = ((q ^^ q') ^^ (r ^^ r')) := by decide
  exact linear _ _ _ _ _ _ hbit

theorem columnParity_eq_of_theta_eq {a b : Canon} (h : theta a = theta b) {x : Nat} (hx : x < 5) :
    columnParity a x = columnParity b x := by
  refine BitVec.eq_of_getLsbD_eq fun i hi => ?_
  have hzero := eq_zero_of_sumOfNeighbours (sumOfNeighbours_parityDiff h) ⟨x, hx⟩ ⟨i, hi⟩
  simpa [parityDiff] using hzero

/-! ### Chi: the bits of a row can be recovered (R78) -/

/-- On the bits of one row chi loses nothing. -/
theorem chiBits_injective : ∀ p q : Fin 5 → Bool,
    (∀ x, (p x ^^ (!p (x + 1) && p (x + 2))) = (q x ^^ (!q (x + 1) && q (x + 2)))) → p = q := by decide

/-- Bit i of the lane in column x of row y. -/
def rowBits (a : Canon) (y i : Nat) (x : Fin 5) : Bool := (laneXY a x y).getLsbD i

theorem rowBits_chi (a : Canon) {y i : Nat} (hy : y < 5) (hi : i < 64) (x : Fin 5) :
    rowBits (chi a) y i x = (rowBits a y i x ^^ (!rowBits a y i (x + 1) && rowBits a y i (x + 2))) := by
  have h1 : ((x + 1 : Fin 5) : Nat) = (x + 1) % 5 := by omega
  have h2 : ((x + 2 : Fin 5) : Nat) = (x + 2) % 5 := by omega
  simp [rowBits, laneXY_chi a x.isLt hy, h1, h2, hi]

/-! ### The transforms, a round, and the schedule -/

section
variable {a b : Canon} (ha : a.length = 25) (hb : b.length = 25)
include ha hb

theorem theta_injective (h : theta a = theta b) : a = b := by
  have hparity := fun x (hx : x < 5) => columnParity_eq_of_theta_eq h hx
  refine canon_ext ha hb fun x y hx hy => ?_
  have heffect : thetaEffect a x = thetaEffect b x := by
    simp only [thetaEffect, hparity _ (Nat.mod_lt _ (by decide))]
  have hlane : laneXY a x y ^^^ thetaEffect a x = laneXY b x y ^^^ thetaEffect b x := by
    rw [← laneXY_theta a hx hy, ← laneXY_theta b hx hy, h]
  rwa [heffect, BitVec.xor_left_inj] at hlane

theorem rhoPi_injective (h : rhoPi a = rhoPi b) : a = b := by
  refine canon_ext ha hb fun x y hx hy => rotl64_injective (rho_lt hx hy) ?_
  rw [← laneXY_rhoPi_dest a hx hy, ← laneXY_rhoPi_dest b hx hy, h]

theorem chi_injective (h : chi a = chi b) : a = b := by
  refine canon_ext ha hb fun x y hx hy => BitVec.eq_of_getLsbD_eq fun i hi => ?_
  have hrow : rowBits a y i = rowBits b y i := chiBits_injective _ _ fun x => by
    rw [← rowBits_chi a hy hi, ← rowBits_chi b hy hi, h]
  exact congrFun hrow ⟨x, hx⟩

theorem iota_injective {i : Nat} (h : iota a i = iota b i) : a = b := by
  refine canon_ext ha hb fun x y hx hy => ?_
  have hlane := congrArg (laneXY · x y) h
  simp only [laneXY_iota _ hx hy] at hlane
  split at hlane
  · next h0 =>
    obtain ⟨rfl, rfl⟩ := h0
    simpa using hlane
  · exact hlane

theorem keccakRound_injective {i : Nat} (h : keccakRound a i = keccakRound b i) : a = b :=
  theta_injective ha hb <| rhoPi_injective (canonOf_length _) (canonOf_length _) <|
    chi_injective (canonOf_length _) (canonOf_length _) <| iota_injective (canonOf_length _) (canonOf_length _) h

end

/-- Settles O32: the first round is injective (`keccakRound_injective`) and by induction so are the R rounds after it. -/
theorem permutationIsInjective : Obligations.PermutationIsInjective := by
  intro r
  induction r with
  | zero => exact fun a b _ _ _ h => h
  | succ r ih =>
    intro a b hr ha hb h
    rw [scheduleIsTheTail.2 a r hr, scheduleIsTheTail.2 b r hr] at h
    exact keccakRound_injective ha hb (ih _ _ (Nat.le_of_succ_le hr) (canonOf_length _) (canonOf_length _) h)

end Sys2Proof.Machine

/-! ## The batched form (spec 00_scope R14, 40_permute R84, R86) -/

namespace Sys2Proof.Machine

/-! ### Lane-vectors, element by element (R14) -/

/-- The lane-vector of n elements whose element k is f k. -/
def vecOf (n : Nat) (f : Nat → Word) : LaneVec := (List.range n).map f

section
variable (n : Nat) (f g e : Nat → Word)

@[simp] theorem vxor_vecOf : vxor (vecOf n f) (vecOf n g) = vecOf n fun k => f k ^^^ g k := by
  simp [vxor, vecOf, List.zipWith_map, List.zipWith_self]

@[simp] theorem vrotl_vecOf (r : Nat) : vrotl (vecOf n f) r = vecOf n fun k => rotl64 (f k) r := by
  simp [vrotl, vecOf]

@[simp] theorem vchi_vecOf : vchi (vecOf n f) (vecOf n g) (vecOf n e) = vecOf n fun k => f k ^^^ (~~~ g k &&& e k) := by
  simp [vchi, vecOf, List.zipWith_map, List.zipWith_self]

@[simp] theorem vbcast_eq_vecOf (w : Word) : vbcast n w = vecOf n fun _ => w := by
  simp [vbcast, vecOf]

end

/-! ### The transforms of a register file that holds n canonical states (R84) -/

/-- The register file of n canonical states. -/
def fileOf (n : Nat) (a : Nat → Canon) : VFile := vfileOf n fun k l => laneAt (a k) l

section
variable (n : Nat) (a : Nat → Canon)

theorem vreg_fileOf {l : Nat} (hl : l < 25) : vreg (fileOf n a) l = vecOf n fun k => laneAt (a k) l := by
  simp [vreg, fileOf, vfileOf, vecOf, List.getD_eq_getElem?_getD, hl]

/-- A file whose registers hold the lanes of n canonical states is theirs. -/
theorem map_range_eq_fileOf {r : Nat → LaneVec} (h : ∀ l, l < 25 → r l = vecOf n fun k => laneAt (a k) l) :
    (List.range 25).map r = fileOf n a :=
  List.map_congr_left fun l hl => h l (List.mem_range.1 hl)

theorem batchedParity_fileOf {x : Nat} (hx : x < 5) :
    batchedParity (fileOf n a) x = vecOf n fun k => columnParity (a k) x := by
  unfold batchedParity
  rw [vreg_fileOf n a (by omega), vreg_fileOf n a (by omega), vreg_fileOf n a (by omega), vreg_fileOf n a (by omega),
    vreg_fileOf n a (by omega)]
  simp [columnParity, laneXY, laneIdx, BitVec.xor_assoc, Nat.add_comm]

theorem batchedEffect_fileOf (x : Nat) : batchedEffect (fileOf n a) x = vecOf n fun k => thetaEffect (a k) x := by
  unfold batchedEffect
  rw [batchedParity_fileOf n a (Nat.mod_lt _ (by decide)), batchedParity_fileOf n a (Nat.mod_lt _ (by decide))]
  simp [thetaEffect]

theorem batchedTheta_fileOf : batchedTheta (fileOf n a) = fileOf n fun k => theta (a k) :=
  map_range_eq_fileOf n _ fun l hl => by
    rw [vreg_fileOf n a hl, batchedEffect_fileOf, vxor_vecOf]
    simp only [theta, laneAt_canonOf hl]

theorem batchedRhoPi_fileOf : batchedRhoPi (fileOf n a) = fileOf n fun k => rhoPi (a k) :=
  map_range_eq_fileOf n _ fun l hl => by
    have hsource : laneIdx (piSourceX (l % 5) (l / 5)) (l % 5) < 25 :=
      laneIdx_lt (Nat.mod_lt _ (by decide)) (Nat.mod_lt _ (by decide))
    rw [vreg_fileOf n a hsource, vrotl_vecOf]
    simp only [laneAt_rhoPi _ hl]

theorem batchedChi_fileOf : batchedChi (fileOf n a) = fileOf n fun k => chi (a k) :=
  map_range_eq_fileOf n _ fun l hl => by
    have hrow : ∀ x, laneIdx (x % 5) (l / 5) < 25 := fun x => laneIdx_lt (Nat.mod_lt _ (by decide)) (by omega)
    rw [vreg_fileOf n a hl, vreg_fileOf n a (hrow _), vreg_fileOf n a (hrow _), vchi_vecOf]
    simp only [chi, laneAt_canonOf hl, laneXY, laneIdx_mod_div]

theorem batchedIota_fileOf (i : Nat) : batchedIota n (fileOf n a) i = fileOf n fun k => iota (a k) i :=
  map_range_eq_fileOf n _ fun l hl => by
    simp only [iota, laneAt_canonOf hl]
    split
    · rw [vreg_fileOf n a (by decide), vbcast_eq_vecOf, vxor_vecOf]
    · exact vreg_fileOf n a hl

theorem batchedRound_fileOf (i : Nat) : batchedRound n (fileOf n a) i = fileOf n fun k => keccakRound (a k) i := by
  unfold batchedRound keccakRound
  rw [batchedTheta_fileOf, batchedRhoPi_fileOf, batchedChi_fileOf, batchedIota_fileOf]

end

theorem batchedKeccakP_fileOf (n r : Nat) (a : Nat → Canon) :
    batchedKeccakP n (fileOf n a) r = fileOf n fun k => keccakP (a k) r := by
  unfold batchedKeccakP keccakP
  induction List.range r generalizing a with
  | nil => rfl
  | cons j js ih =>
    simp only [List.foldl_cons]
    rw [batchedRound_fileOf, ih]

/-- A register file of the right shape holds its canonical states (R20). -/
theorem fileOf_canonical {n : Nat} {v : VFile} (h : VFile.shaped n v) :
    fileOf n (fun k => canonOf fun l => elemAt v l k) = v := by
  refine Eq.trans (vfileOf_congr fun k l _ hl => ?_) (vfileOf_elemAt h)
  exact laneAt_canonOf hl

theorem canonOf_elemAt_fileOf {n k : Nat} {a : Nat → Canon} (hk : k < n) (ha : (a k).length = 25) :
    (canonOf fun l => elemAt (fileOf n a) l k) = a k := by
  rw [← canonOf_laneAt (a k) ha]
  exact canonOf_congr fun l hl => elemAt_vfileOf hl hk

/-- PERM's register file (R85). -/
theorem v_permuteAll (r : Nat) (s : State) : (permuteAll r s).v = fileOf s.n fun k => keccakP (s.canonical k) r :=
  vfileOf_congr fun k l hk _ => by simp [List.getD_eq_getElem?_getD, hk]

/-- Settles O33: a register file of the right shape holds canonical states (`fileOf_canonical`), and on those the batched
round is the scalar one (`batchedRound_fileOf`). -/
theorem batchedEqualsScalar : Obligations.BatchedEqualsScalar := by
  refine ⟨fun n v i k hv hk => ?_, fun s r hv _ => ?_⟩
  · have hround := batchedRound_fileOf n (fun k => canonOf fun l => elemAt v l k) i
    rw [fileOf_canonical hv] at hround
    rw [hround]
    exact ⟨vfileOf_shaped _ _, canonOf_elemAt_fileOf hk (canonOf_length _)⟩
  · have hrounds := batchedKeccakP_fileOf s.n r s.canonical
    rw [v_permuteAll, ← hrounds]
    exact congrArg (batchedKeccakP s.n · r) (fileOf_canonical hv)

end Sys2Proof.Machine

/-! ## The completion of a command, and CMPS (spec 41_packer R93, R94) -/

namespace Sys2Proof.Machine

/-- A command that can run and has a step completes with its effect, and the words behind its payload come to the head of the
channel (R24, R25, R29). -/
theorem exec_completes {i : Instr} {s : State} {payload rest : List Word} (hc : s.hasCommand i payload rest)
    (hr : s.canRun i) (hs : hasStep i s payload = true) :
    exec i s = .next (complete (payloadWords s.cfg.width i) (effectOf i s payload)) ∧
      s.retired (payloadWords s.cfg.width i) (complete (payloadWords s.cfg.width i) (effectOf i s payload)) ∧
      (complete (payloadWords s.cfg.width i) (effectOf i s payload)).cmd = rest := by
  obtain ⟨hcmd, hlen⟩ := hc
  have he := effectOf_effect i s payload
  refine ⟨(exec_of_canRun ⟨hcmd, hlen⟩ hr).trans (if_pos hs),
    complete_retired he.fixed he.cmd he.rptr he.cmdIdx he.readable he.raced, ?_⟩
  rw [complete_cmd, he.cmd, hcmd, Nat.add_comm, List.drop_succ_cons, ← hlen, List.drop_left]

theorem stateEquals_iff (q : List Word) (s : State) :
    stateEquals q s = true ↔ ∀ k l, k < s.n → l < 25 → s.lane k l = instanceWord q 25 k l := by
  simp only [stateEquals, List.all_eq_true, List.mem_range, beq_iff_eq]
  exact forall_congr' fun _ => forall_comm

theorem flagWord_eq_zero_or_one (b : Bool) : flagWord b = 0 ∨ flagWord b = 1 := by
  cases b
  · exact .inl rfl
  · exact .inr rfl

end Sys2Proof.Machine

namespace Sys2Proof
open Machine

/-- Settles O17: CMPS completes (`exec_completes`); its word and its draw follow from whether the state equals the payload
(`stateEquals_iff`) and, if it does not, from CMPS_EXACT. It stands outside `Machine`, where
`cmpsResult` is the model's word. -/
theorem cmpsResult : Obligations.CmpsResult := by
  intro s q rest hcmd hrun
  obtain ⟨hexec, hretired, hrest⟩ := exec_completes hcmd hrun rfl
  refine ⟨_, Machine.cmpsResult q s, hexec, hretired, hrest, rfl, ?_, ?_, ?_, rfl, rfl⟩ <;> rw [← stateEquals_iff]
  · intro heq
    simp [effectOf, Machine.cmpsResult, cmpsDraws, heq]
  · intro hne hexact
    simp [effectOf, Machine.cmpsResult, cmpsDraws, hne, hexact]
  · intro hne hexact
    have hword : Machine.cmpsResult q s = flagWord (Config.freeBit s.draws) := by simp [Machine.cmpsResult, hne, hexact]
    rw [hword]
    exact ⟨flagWord_eq_zero_or_one _, rfl, by simp [effectOf, cmpsDraws, hne, hexact]⟩

end Sys2Proof

/-! ## The transpose unit: LDST, STST, FTRN, LDXR (spec 42_transpose R96 to R104) -/

namespace Sys2Proof.Machine

/-! ### The two layouts of the N states (R67, R96) -/

/-- Two register files of the right shape with the same elements are equal. -/
theorem vfile_ext {n : Nat} {v w : VFile} (hv : VFile.shaped n v) (hw : VFile.shaped n w)
    (h : ∀ k l, k < n → l < 25 → elemAt v l k = elemAt w l k) : v = w := by
  rw [← vfileOf_elemAt hv, ← vfileOf_elemAt hw]
  exact vfileOf_congr h

theorem elemAt_interleave {n k l : Nat} (states : List Canon) (hk : k < n) (hl : l < 25) :
    elemAt (interleave n states) l k = laneAt (states.getD k []) l :=
  elemAt_vfileOf hl hk

theorem getD_uninterleave {n k : Nat} (v : VFile) (hk : k < n) :
    (uninterleave n v).getD k [] = canonOf fun l => elemAt v l k := by
  simp [uninterleave, List.getD_eq_getElem?_getD, hk]

theorem laneAt_uninterleave {n k l : Nat} (v : VFile) (hk : k < n) (hl : l < 25) :
    laneAt ((uninterleave n v).getD k []) l = elemAt v l k := by
  rw [getD_uninterleave v hk, laneAt_canonOf hl]

theorem uninterleave_interleave {n : Nat} {states : List Canon} (hlen : states.length = n)
    (hcanon : ∀ a ∈ states, a.length = 25) : uninterleave n (interleave n states) = states := by
  refine List.ext_getElem (by simp [uninterleave, hlen]) fun k _ hk => ?_
  have hlanes : (canonOf fun l => elemAt (interleave n states) l k) = canonOf (laneAt states[k]) :=
    canonOf_congr fun l hl => by simp [elemAt_interleave states (hlen ▸ hk) hl, List.getD_eq_getElem?_getD, hk]
  simp only [uninterleave, List.getElem_map, List.getElem_range]
  rw [hlanes, canonOf_laneAt _ (hcanon _ (List.getElem_mem hk))]

theorem interleave_uninterleave {n : Nat} {v : VFile} (hv : VFile.shaped n v) :
    interleave n (uninterleave n v) = v :=
  vfile_ext (vfileOf_shaped _ _) hv fun k l hk hl => by rw [elemAt_interleave _ hk hl, laneAt_uninterleave v hk hl]

/-- Settles O34: the two layouts have the same lanes (`elemAt_interleave`, `laneAt_uninterleave`), so each is rebuilt from
the other (`uninterleave_interleave`, `interleave_uninterleave`). -/
theorem interleaveInverse : Obligations.InterleaveInverse := fun _ =>
  ⟨fun states _ _ hl hk => elemAt_interleave states hk hl, fun v _ _ hl hk => laneAt_uninterleave v hk hl,
    fun _ => uninterleave_interleave, fun _ => interleave_uninterleave⟩

/-! ### LDST and STST (R97, R98) -/

/-- A list of len words for each of n states has word number len * k + i, that of state k at position i (R67). -/
theorem getElem?_instanceWord {ws : List Word} {n len k i : Nat} (h : ws.length = n * len) (hk : k < n) (hi : i < len) :
    ws[len * k + i]? = some (instanceWord ws len k i) := by
  have hlt : len * k + i < ws.length :=
    calc len * k + i < len * k + len := by omega
      _ = (k + 1) * len := by ring
      _ ≤ n * len := Nat.mul_le_mul_right _ hk
      _ = ws.length := h.symm
  simp [instanceWord, List.getD_eq_getElem?_getD, hlt]

/-- Settles O18: LDST completes (`exec_completes`), and its lanes are the payload's words (`elemAt_interleave_payload`). -/
theorem ldstResult : Obligations.LdstResult := by
  intro s q rest hcmd hrun
  obtain ⟨hexec, hretired, hrest⟩ := exec_completes hcmd hrun rfl
  refine ⟨_, hexec, hretired, hrest, fun k l hk hl => ?_, rfl, rfl, rfl⟩
  rw [getElem?_instanceWord (hcmd.2.trans (Nat.mul_comm _ _)) hk hl]
  exact congrArg some (elemAt_interleave_payload s.n q hk hl)

/-- Settles O19: STST completes (`exec_completes`), and its words are the lanes of S_0, then of S_1, and on
(`uninterleave_flatten`). -/
theorem ststResult : Obligations.StstResult := by
  intro s rest hcmd hrun
  obtain ⟨hexec, hretired, hrest⟩ := exec_completes hcmd hrun rfl
  have hlen : (uninterleave s.n s.v).flatten.length = s.n * 25 := by
    rw [uninterleave_flatten, instanceMajor_length]
  refine ⟨_, _, hexec, hretired, hrest, rfl, hlen.trans (Nat.mul_comm _ _), fun k l hk hl => ?_, rfl, rfl, rfl⟩
  rw [getElem?_instanceWord hlen hk hl, uninterleave_flatten, instanceWord_instanceMajor _ _ _ hk hl]
  rfl

/-- A running engine completes, in one step, a command that can run and has a step. -/
theorem step_completes {i : Instr} {s : State} {payload rest : List Word} (hlegal : configLegal s.cfg = true)
    (hf : s.fault = false) (hc : s.hasCommand i payload rest) (hr : s.canRun i) (hs : hasStep i s payload = true) :
    step s = .next (complete (payloadWords s.cfg.width i) (effectOf i s payload)) ∧
      (complete (payloadWords s.cfg.width i) (effectOf i s payload)).cmd = rest := by
  obtain ⟨hexec, -, hrest⟩ := exec_completes hc hr hs
  exact ⟨(step_eq_exec hlegal hf hc.1 (decode_encode i)).trans hexec, hrest⟩

theorem hasRoom_zero_of_hasRoom {e : Nat} {s : State} (h : hasRoom e s = true) : hasRoom 0 s = true := by
  rw [hasRoom_iff] at h ⊢
  intro d hd
  have := h d hd
  omega

/-- The states of a payload, one after the other, are its words in their order (R67). -/
theorem payloadStates_flatten (n : Nat) (ws : List Word) :
    (payloadStates n ws).flatten = instanceMajor n 25 (instanceWord ws 25) := by
  simp [payloadStates, instanceMajor, canonOf, List.flatMap]

/-- STST's words from an LDST's register file are the payload of that LDST (R96 to R98). -/
theorem flatten_uninterleave_interleave_payload {n : Nat} {ws : List Word} (h : ws.length = 25 * n) :
    (uninterleave n (interleave n (payloadStates n ws))).flatten = ws := by
  rw [uninterleave_interleave (by simp [payloadStates]) (by simp [payloadStates]), payloadStates_flatten]
  exact instanceMajor_instanceWord n 25 ws (by omega)

/-- Settles O35: each of the two steps completes (`step_completes`), and STST emits what LDST took
(`flatten_uninterleave_interleave_payload`). -/
theorem loadThenStoreRoundTrip : Obligations.LoadThenStoreRoundTrip := by
  intro s ws rest hlegal hf hcmd hroom
  obtain ⟨hload, hcmd'⟩ := step_completes hlegal hf hcmd ⟨rfl, nofun, hasRoom_zero_of_hasRoom hroom⟩ rfl
  obtain ⟨hstore, hrest⟩ := step_completes (i := .stst) (s := complete _ (effectOf .ldst s ws)) (payload := []) hlegal hf
    ⟨hcmd', rfl⟩ ⟨rfl, fun _ => rfl, hroom⟩ rfl
  refine ⟨_, _, hload, hstore, ?_, hrest, rfl⟩
  exact congrArg (s.resp ++ ·) (flatten_uninterleave_interleave_payload hcmd.2)

/-! ### FTRN (R99 to R101) -/

theorem block_le_of_canRun_ftrn {s : State} {b : Field} (h : s.canRun (.ftrn b)) : b.toNat + s.n ≤ 25 :=
  of_decide_eq_true h.1

/-- The new S_k(b + i) is the old S_i(b + k), where the block does not pass lane 24 (R100). -/
theorem lane_transposeBlock_block {b i k : Nat} {s : State} (hb : b + s.n ≤ 25) (hi : i < s.n) (hk : k < s.n) :
    (transposeBlock b s).lane k (b + i) = s.lane i (b + k) := by
  rw [lane_transposeBlock b s hk (by omega), if_pos ⟨by omega, by omega⟩, Nat.add_sub_cancel_left]

/-- A lane outside the block of a block transpose (R100). -/
theorem lane_transposeBlock_outside {b k l : Nat} {s : State} (hk : k < s.n) (hl : l < 25) (h : ¬ inBlock b s.n l) :
    (transposeBlock b s).lane k l = s.lane k l := by
  rw [lane_transposeBlock b s hk hl, if_neg h]

/-- Settles O20: FTRN completes (`exec_completes`), and its effect on a lane is `lane_transposeBlock`. -/
theorem ftrnResult : Obligations.FtrnResult := by
  intro s b rest hcmd hrun
  obtain ⟨hexec, hretired, hrest⟩ := exec_completes hcmd hrun rfl
  refine ⟨_, hexec, hretired, hrest, fun i j hi hj => ?_, fun k l hk hl hout => ?_, rfl, rfl, rfl⟩
  · exact lane_transposeBlock_block (block_le_of_canRun_ftrn hrun) hi hj
  · exact lane_transposeBlock_outside hk hl (by omega)

/-- Transposing the block of a transposed register file gives back the file (R101). -/
theorem v_transposeBlock_twice {b : Nat} {s t : State} (hb : b + s.n ≤ 25) (hs : VFile.shaped s.n s.v) (hn : t.n = s.n)
    (hv : t.v = (transposeBlock b s).v) : (transposeBlock b t).v = s.v := by
  have hlane : ∀ k l, t.lane k l = (transposeBlock b s).lane k l := fun k l => congrArg (elemAt · l k) hv
  refine vfile_ext (hn ▸ vfileOf_shaped _ _) hs fun k l hk hl => ?_
  change (transposeBlock b t).lane k l = s.lane k l
  by_cases hin : inBlock b s.n l
  · obtain ⟨i, rfl⟩ := Nat.exists_eq_add_of_le hin.1
    have hi : i < s.n := by omega
    rw [lane_transposeBlock_block (hn ▸ hb) (hn ▸ hi) (hn ▸ hk), hlane, lane_transposeBlock_block hb hk hi]
  · rw [lane_transposeBlock_outside (hn ▸ hk) hl (hn ▸ hin), hlane, lane_transposeBlock_outside hk hl hin]

/-- Settles O36: each of the two steps completes (`step_completes`) and the second undoes the first
(`v_transposeBlock_twice`); rows of states become columns by `lane_transposeBlock_block`. -/
theorem transposeLaws : Obligations.TransposeLaws := by
  refine ⟨fun s b rest hlegal hf hcmd hrun hv => ?_, fun s t b rest states hcmd hrun hrows hexec j k hj hk => ?_⟩
  · obtain ⟨hfirst, hcmd'⟩ := step_completes hlegal hf hcmd hrun rfl
    obtain ⟨hsecond, -⟩ := step_completes (s := complete _ (effectOf (.ftrn b) s [])) (payload := []) hlegal hf
      ⟨hcmd', rfl⟩ hrun rfl
    exact ⟨_, _, hfirst, hsecond, v_transposeBlock_twice (block_le_of_canRun_ftrn hrun) hv rfl rfl⟩
  · obtain rfl := eq_of_answerOf_eq_next ((exec_of_canRun hcmd hrun).symm.trans hexec)
    exact (lane_transposeBlock_block (block_le_of_canRun_ftrn hrun) hj hk).trans (hrows k j hk hj)

/-! ### LDXR (R102, R103) -/

/-- The word LDXR reads for S_k(o + i), byte by byte (R102, R103). -/
theorem ldxrWord_eq (s : State) (ptrs : List Word) (o l k i : Nat) :
    ldxrWord s ptrs o l k i = le64 fun b => hostByte s
      ((ptrs.getD k 0).toNat + (if s.cfg.lxBase = .image then 8 * (o + i) else 8 * i) + b)
      (s.draws + 8 * (l * k + i) + b) := by
  rw [ldxrWord, ldxrAddr_eq, le64At]

theorem block_le_of_canRun_ldxr {s : State} {o l : Field} (h : s.canRun (.ldxr o l)) : o.toNat + l.toNat ≤ 25 :=
  (of_decide_eq_true h.1).2.2

/-- Settles O21: LDXR completes, its bytes admitted (`ldxrAdmitted_iff`); the word it xors into a lane of its block
(`lane_xorBlock`) is `ldxrWord_eq`. -/
theorem ldxrResult : Obligations.LdxrResult := by
  intro s o l ptrs rest hcmd hrun hbytes
  obtain ⟨hexec, hretired, hrest⟩ := exec_completes hcmd hrun ((ldxrAdmitted_iff s ptrs o.toNat l.toNat).2 hbytes)
  have hblock := block_le_of_canRun_ldxr hrun
  refine ⟨_, hexec, hretired, hrest, fun k i hk hi => ?_, fun k x hk hx hout => ?_, rfl, rfl, rfl⟩
  · rw [← ldxrWord_eq, complete_lane, effectOf, advanceDraws_lane, lane_xorBlock _ _ _ _ hk (by omega),
      if_pos ⟨by omega, by omega⟩, Nat.add_sub_cancel_left]
  · rw [complete_lane, effectOf, advanceDraws_lane, lane_xorBlock _ _ _ _ hk hx, if_neg (by omega)]

end Sys2Proof.Machine

/-! ## The container operations XORL and EXTL (spec 43_container R105 to R110) -/

namespace Sys2Proof.Machine

/-! ### XORL (R106, R107) -/

theorem block_le_of_canRun_xorl {s : State} {o l : Field} (h : s.canRun (.xorl o l)) : o.toNat + l.toNat ≤ 25 :=
  (of_decide_eq_true h.1).2.2

/-- Lane o + i of the block is xored with word i of its instance, where the block does not pass lane 24 (R106). -/
theorem lane_xorBlock_block {o l k i : Nat} {s : State} (w : Nat → Nat → Word) (hb : o + l ≤ 25) (hk : k < s.n)
    (hi : i < l) : (xorBlock o l w s).lane k (o + i) = s.lane k (o + i) ^^^ w k i := by
  rw [lane_xorBlock _ _ _ _ hk (by omega), if_pos ⟨by omega, by omega⟩, Nat.add_sub_cancel_left]

/-- A lane outside the block of an xor (R107). -/
theorem lane_xorBlock_outside {o l k x : Nat} {s : State} (w : Nat → Nat → Word) (hk : k < s.n) (hx : x < 25)
    (h : ¬ inBlock o l x) : (xorBlock o l w s).lane k x = s.lane k x := by
  rw [lane_xorBlock _ _ _ _ hk hx, if_neg h]

/-- Settles O23: XORL completes (`exec_completes`), and its effect on a lane is `lane_xorBlock`. -/
theorem xorlResult : Obligations.XorlResult := by
  intro s o l ws rest hcmd hrun
  obtain ⟨hexec, hretired, hrest⟩ := exec_completes hcmd hrun rfl
  refine ⟨_, hexec, hretired, hrest, fun k i hk hi => ?_, fun k x hk hx hout => ?_, rfl, rfl, rfl⟩
  · exact lane_xorBlock_block _ (block_le_of_canRun_xorl hrun) hk hi
  · exact lane_xorBlock_outside _ hk hx (by omega)

/-- Xoring a block with the words it was xored with gives back the register file (R106). -/
theorem v_xorBlock_twice {o l : Nat} {w : Nat → Nat → Word} {s t : State} (hs : VFile.shaped s.n s.v) (hn : t.n = s.n)
    (hv : t.v = (xorBlock o l w s).v) : (xorBlock o l w t).v = s.v := by
  have hlane : ∀ k x, t.lane k x = (xorBlock o l w s).lane k x := fun k x => congrArg (elemAt · x k) hv
  refine vfile_ext (hn ▸ vfileOf_shaped _ _) hs fun k x hk hx => ?_
  change (xorBlock o l w t).lane k x = s.lane k x
  by_cases hin : inBlock o l x
  · rw [lane_xorBlock _ _ _ _ (hn ▸ hk) hx, if_pos hin, hlane, lane_xorBlock _ _ _ _ hk hx, if_pos hin,
      BitVec.xor_assoc, BitVec.xor_self, BitVec.xor_zero]
  · rw [lane_xorBlock_outside _ (hn ▸ hk) hx hin, hlane, lane_xorBlock_outside _ hk hx hin]

/-- Settles O37: each of the two steps completes (`step_completes`), and the second undoes the first
(`v_xorBlock_twice`). -/
theorem absorbTwiceRestores : Obligations.AbsorbTwiceRestores := by
  intro s o l ws rest hlegal hf hcmd hrun hv
  obtain ⟨hfirst, hcmd'⟩ := step_completes hlegal hf hcmd hrun rfl
  obtain ⟨hsecond, hrest⟩ := step_completes (s := complete _ (effectOf (.xorl o l) s ws)) hlegal hf
    ⟨hcmd', hcmd.2⟩ hrun rfl
  exact ⟨_, _, hfirst, hsecond, v_xorBlock_twice hv rfl rfl, hrest⟩

/-! ### EXTL (R109, R110) -/

/-- Settles O24: EXTL completes (`exec_completes`), and its words are the instance-major list of its lanes
(`instanceWord_instanceMajor`). -/
theorem extlResult : Obligations.ExtlResult := by
  intro s o l rest hcmd hrun
  obtain ⟨hexec, hretired, hrest⟩ := exec_completes hcmd hrun rfl
  have hlen := instanceMajor_length s.n l.toNat fun k i => s.lane k (o.toNat + i)
  refine ⟨_, _, hexec, hretired, hrest, rfl, hlen, fun k i hk hi => ?_, rfl, rfl, rfl⟩
  rw [getElem?_instanceWord hlen hk hi, instanceWord_instanceMajor _ _ _ hk hi]

theorem block_le_of_canRun_extl {s : State} {o l : Field} (h : s.canRun (.extl o l)) : o.toNat + l.toNat ≤ 25 :=
  (of_decide_eq_true h.1).2.2

/-- EXTL's words for all 25 lanes are STST's (R110). -/
theorem instanceMajor_all_lanes (s : State) :
    (instanceMajor s.n 25 fun k i => s.lane k (0 + i)) = (uninterleave s.n s.v).flatten := by
  simp only [uninterleave_flatten, Nat.zero_add, State.lane]

/-- Settles O39: both commands complete; of all lanes they emit one list (`instanceMajor_all_lanes`), and of a block each word
is the lane that the results of EXTL and STST name. -/
theorem extractAgreesWithStore : Obligations.ExtractAgreesWithStore := by
  refine ⟨fun s s' rest rest' hcmd hrun hcmd' hrun' hcfg hv hresp => ?_,
    fun s s' o l rest rest' hcmd hrun hcmd' hrun' hcfg hv => ?_⟩
  · have hn : s'.n = s.n := congrArg (fun c => c.width.n) hcfg
    obtain ⟨hextl, -, -⟩ := exec_completes hcmd hrun rfl
    obtain ⟨hstst, -, -⟩ := exec_completes hcmd' hrun' rfl
    refine ⟨_, _, hextl, hstst, ?_, rfl, hv⟩
    calc s.resp ++ (instanceMajor s.n 25 fun k i => s.lane k (0 + i))
      _ = s.resp ++ (uninterleave s.n s.v).flatten := by rw [instanceMajor_all_lanes]
      _ = s'.resp ++ (uninterleave s'.n s'.v).flatten := by rw [hresp, hn, hv]
  · have hn : s'.n = s.n := congrArg (fun c => c.width.n) hcfg
    obtain ⟨t, ws, hextl, -, -, hws, hlen, hword, -⟩ := extlResult s o l rest hcmd hrun
    obtain ⟨t', ws', hstst, -, -, hws', -, hword', -⟩ := ststResult s' rest' hcmd' hrun'
    refine ⟨t, t', ws, ws', hextl, hstst, hws, hws', hlen, fun k i hk hi => ?_⟩
    have hblock := block_le_of_canRun_extl hrun
    have hlane : s'.lane k (o.toNat + i) = s.lane k (o.toNat + i) := congrArg (elemAt · (o.toNat + i) k) hv
    rw [hword k i hk hi, Nat.add_assoc, hword' k _ (hn ▸ hk) (by omega), hlane]

end Sys2Proof.Machine

/-! ## The check of a header and the step that follows it (spec 60_exceptions R112 to R115, R127) -/

namespace Sys2Proof.Machine

/-! ### R113's check is the decoder's, then the command's own -/

/-- The bit fields that R113 takes from a header are R56's fields. -/
theorem bits_eq_fields (h : Word) :
    h.toNat / 2 ^ 0 % 2 ^ 8 = (opField h).toNat ∧ h.toNat / 2 ^ 8 % 2 ^ 5 = (roundsField h).toNat ∧
      h.toNat / 2 ^ 13 % 2 ^ 3 = (rsvA h).toNat ∧ h.toNat / 2 ^ 16 % 2 ^ 5 = (offsetField h).toNat ∧
      h.toNat / 2 ^ 21 % 2 ^ 3 = (rsvB h).toNat ∧ h.toNat / 2 ^ 24 % 2 ^ 5 = (lanesField h).toNat ∧
      h.toNat / 2 ^ 29 % 2 ^ 35 = (rsvC h).toNat := by
  have field : ∀ lo w, h.toNat / 2 ^ lo % 2 ^ w = (h.extractLsb' lo w).toNat := fun lo w => by
    rw [BitVec.extractLsb'_toNat, Nat.shiftRight_eq_div_pow]
  exact ⟨field _ _, field _ _, field _ _, field _ _, field _ _, field _ _, field _ _⟩

theorem acceptIf_eq_reject {ok : Bool} {i : Instr} {r : Reject} :
    acceptIf ok i = .reject r ↔ ok = false ∧ r = .reservedField := by
  cases ok <;> simp [acceptIf, eq_comm]

/-- A header that is no command fails R113's check at the line of the decoder's rejection. -/
theorem headerCheck_of_reject {h : Word} {r : Reject} (n : Width) (loaded : Bool) (hd : decode h = .reject r) :
    headerCheck n loaded h = some (rejectCause r) := by
  simp only [headerCheck, bits_eq_fields]
  unfold decode at hd
  cases hop : opcodeOf (opField h) with
  | none =>
    have hreserved := (opcodeOf_eq_none_iff _).1 hop
    simp only [hop] at hd
    cases hd
    exact if_pos (by omega)
  | some op =>
    have hcode := code_of_opcodeOf hop
    -- a reserved bit or an unused field is set, and R113's lines for those come before those for ranges and LOADED
    cases op <;>
      · simp only [hop, acceptIf_eq_reject] at hd
        obtain ⟨hset, rfl⟩ := hd
        simp only [hcode, Opcode.code, Bool.and_eq_false_iff, beq_eq_false_iff_ne, ne_eq,
          BitVec.toNat_eq] at hset ⊢
        grind [rejectCause]

/-- The checks of R113 that are left on a legal header: the ranges of its command's fields, then LOADED. -/
def commandCheck (n : Width) (loaded : Bool) (i : Instr) : Option Cause :=
  (fieldFault n i).or (if needsLoaded i && !loaded then some .notLoaded else none)

theorem headerCheck_encode (n : Width) (loaded : Bool) (i : Instr) :
    headerCheck n loaded (encode i) = commandCheck n loaded i := by
  simp only [headerCheck, bits_eq_fields]
  -- the opcode is defined and all that must be 0 is 0; the lines of R113 for i's opcode are i's own checks
  cases i <;>
    simp only [encode, opField_headerWord, roundsField_headerWord, offsetField_headerWord, lanesField_headerWord,
      rsvA_headerWord, rsvB_headerWord, rsvC_headerWord, Opcode.code, commandCheck, fieldFault, needsLoaded, roundsOk,
      absorbLanesOk, extractLanesOk, blockFits, decide_eq_true_eq] <;>
    grind

theorem headerCheck_of_command {h : Word} {i : Instr} (n : Width) (loaded : Bool) (hd : decode h = .command i) :
    headerCheck n loaded h = commandCheck n loaded i := by
  rw [← encode_eq_of_decode hd, headerCheck_encode]

/-! ### A command that fails its own check, and one that passes it (R113, R114) -/

theorem commandCheck_eq_none_iff {n : Width} {loaded : Bool} {i : Instr} :
    commandCheck n loaded i = none ↔ i.wellFormed n = true ∧ (needsLoaded i = true → loaded = true) := by
  simp [commandCheck, fieldFault_eq_none_iff]

/-- Every meaning is its check, and then what starts the command. -/
theorem exec_eq_commandCheck_elim (i : Instr) (s : State) :
    exec i s = (commandCheck s.cfg.width s.loaded i).elim
      (start (payloadWords s.cfg.width i) (responseWords s.cfg.width i) s (answerOf i s)) (raise · i s) := by
  rw [exec_eq, commandCheck]
  cases fieldFault s.cfg.width i with
  | some c => rfl
  | none => cases needsLoaded i && !s.loaded <;> rfl

/-- A command that passes its check raises no fault: it holds, is stuck, or completes. -/
theorem fault_of_exec {i : Instr} {s t : State} (hcheck : commandCheck s.cfg.width s.loaded i = none)
    (hexec : exec i s = .next t) : t.fault = s.fault := by
  rw [exec_eq_commandCheck_elim, hcheck, Option.elim_none] at hexec
  rcases start_cases (payloadWords s.cfg.width i) (responseWords s.cfg.width i) s (answerOf i s) with
    ⟨hhold, -⟩ | ⟨hstart, -⟩
  · cases hhold.symm.trans hexec
    rfl
  · rw [eq_of_answerOf_eq_next (hstart.symm.trans hexec)]
    exact (effectOf_effect i s _).fixed.fault

/-! ### The obligations -/

/-- Settles O7: a header that is no command fails R113's check as the decoder rejects it, and a command's header as its meaning
does, which raises no fault else. -/
theorem stepFollowsCheckOrder : Obligations.StepFollowsCheckOrder := by
  intro s h rest hlegal hf hcmd
  cases hd : decode h with
  | reject r =>
    rw [headerCheck_of_reject _ _ hd]
    exact step_of_reject hlegal hf hcmd hd
  | command i =>
    have hstep : step s = exec i s := step_eq_exec hlegal hf hcmd hd
    rw [headerCheck_of_command _ _ hd]
    cases hcheck : commandCheck s.cfg.width s.loaded i with
    | some c =>
      have hraise : exec i s = raise c i s := by rw [exec_eq_commandCheck_elim, hcheck, Option.elim_some]
      rw [raise, encode_eq_of_decode hd] at hraise
      exact hstep.trans hraise
    | none =>
      have hfault : ∀ t, step s = .next t → t.fault = false := fun t ht =>
        (fault_of_exec hcheck (hstep.symm.trans ht)).trans hf
      exact ⟨i, rfl, (commandCheck_eq_none_iff.1 hcheck).1, hstep, hfault⟩

/-- Settles O8: R112's table, code by code. -/
theorem causeCodesOfTable : Obligations.CauseCodesOfTable := ⟨rfl, rfl, rfl, rfl, rfl, rfl⟩

/-- Settles O12: of all that a step can do (`step_cases`), a refusal needs an illegal configuration, and a fault or a command a
running engine and a header in its channel. -/
theorem haltedOrIdleKeepsState : Obligations.HaltedOrIdleKeepsState := by
  intro s hlegal hquiet
  rcases step_cases s with ⟨-, hillegal⟩ | ⟨hkept, -⟩ | ⟨_, _, _, hcmd, hf, -⟩ | ⟨_, _, _, hcmd, hf, -⟩
  · simp [hlegal] at hillegal
  · exact hkept
  · simp [hcmd, hf] at hquiet
  · simp [hcmd, hf] at hquiet

end Sys2Proof.Machine

/-! ## What a command does on an engine that does not fault: it completes, or it holds (spec 70_reset_and_hazards R132, R133, R138) -/

namespace Sys2Proof.Machine

/-! ### Progress -/

/-- Only LDXR can lack a step, and has one when its bytes are admitted (R45, R116). -/
theorem hasStep_of_admitted {i : Instr} {s : State} {payload : List Word}
    (ha : ∀ o l, i = .ldxr o l → ldxrAdmitted s payload o.toNat l.toNat = true) : hasStep i s payload = true := by
  cases i with
  | ldxr o l => exact ha o l rfl
  | _ => rfl

/-- Settles O51: the command has a step (`hasStep_of_admitted`), so its meaning completes (`exec_completes`) and is the engine's
step; its response words are those of its effect (`effectOf_effect`). -/
theorem unheldCommandCompletes : Obligations.UnheldCommandCompletes := by
  intro s i payload rest hlegal hf hcmd hrun hbytes
  obtain ⟨hexec, hretired, hrest⟩ := exec_completes hcmd hrun (hasStep_of_admitted hbytes)
  obtain ⟨ws, hlen, hresp⟩ := (effectOf_effect i s payload).resp
  have hstep : step s = exec i s := step_eq_exec hlegal hf hcmd.1 (decode_encode i)
  exact ⟨_, ws, hstep.trans hexec, hretired, hrest, hresp, hlen⟩

/-! ### The two holds -/

/-- A running engine whose next command passes R113's check holds while the payload is short or the responses lack room: `start`
does not run the command's effect (R116). -/
theorem step_holds {s : State} {h : Word} {rest : List Word} {i : Instr} (hlegal : configLegal s.cfg = true)
    (hf : s.fault = false) (hcmd : s.cmd = h :: rest) (hd : decode h = .command i)
    (hcheck : headerCheck s.cfg.width s.loaded h = none)
    (hhold : rest.length < payloadWords s.cfg.width i ∨ hasRoom (responseWords s.cfg.width i) s = false) :
    step s = .next s := by
  rw [headerCheck_of_command _ _ hd] at hcheck
  rw [step_eq_exec hlegal hf hcmd hd, exec_eq_commandCheck_elim, hcheck, Option.elim_none]
  rcases start_cases (payloadWords s.cfg.width i) (responseWords s.cfg.width i) s (answerOf i s) with
    ⟨hheld, -⟩ | ⟨-, hpayload, hroom⟩
  · exact hheld
  · rw [hcmd, List.length_cons] at hpayload
    rcases hhold with hshort | hfull
    · omega
    · simp [hroom] at hfull

/-- Settles O14: the first of the two holds (`step_holds`). -/
theorem payloadHold : Obligations.PayloadHold :=
  fun _ _ _ _ hlegal hf hcmd hd hcheck hshort => step_holds hlegal hf hcmd hd hcheck (.inl hshort)

/-- Settles O15: responses beyond the channel's depth have no room (`hasRoom_iff`), which is the second of the two holds
(`step_holds`). -/
theorem responseHold : Obligations.ResponseHold := by
  intro s h rest i d hlegal hf hcmd hd hcheck hdepth hdeep
  have hfull : hasRoom (responseWords s.cfg.width i) s = false :=
    Bool.eq_false_iff.2 fun hroom => Nat.not_le.2 hdeep ((hasRoom_iff _ s).1 hroom d hdepth)
  exact step_holds hlegal hf hcmd hd hcheck (.inr hfull)

end Sys2Proof.Machine
